-- ==== Sys2Proof/Word.lean ====
section
/-! DEFINITION. The widths of the Numeric Codec Unit's data (00_scope.md R6, R10, R12). -/

namespace Sys2Proof

/-- One payload byte, `LANE_W` = 8 bits (R6). -/
abbrev Byte := BitVec 8

/-- One 64-bit host value or data port, `VALUE_W` = 64 bits (R6). -/
abbrev Word := BitVec 64

/-- A byte sequence `[p[0], p[1], ...]`, first byte on the wire first (R12). -/
abbrev Bytes := List Byte

/-- `BUF_LANES` and `MAX_LEN`: lanes of the working buffer, and the greatest payload length (R6). -/
abbrev bufLanes : Nat := 8

end Sys2Proof
end

