-- ==== Sys2Proof/Syntax.lean ====
section
/-! DEFINITION. The instruction set of the Numeric Codec Unit: the fields of a command word and the
16 operations of 30_encoding.md R66, one constructor for each row of the opcode table. -/

namespace Sys2Proof

/-- The source's Endianness, "enumeration {Big, Little}" (30_encoding.md R63). -/
inductive Endianness where
  | big
  | little
deriving DecidableEq, Repr, Inhabited

/-- The direction of a conversion, field `DIR` (30_encoding.md R61). -/
inductive Direction where
  | wireToHost
  | hostToWire
deriving DecidableEq, Repr

/-- The numeric kind, field `KIND`, with `raw` for the bare normalizer (30_encoding.md R62). -/
inductive Kind where
  | unsigned
  | signed
  | float
  | raw
deriving DecidableEq, Repr

/-- The 16 operations of 30_encoding.md R66.  Each carries the number in its `LEN` field (R64), also
where the operation does not read it (R68 b), so that no bit of the command word is lost.  The data
operand is no field: it is the port `din` of the same transaction (R60). -/
inductive Instr where
  /-- `DECU.BE`, `decode(payload, Unsigned, Big)` (R103). -/
  | decuBe (len : Nat)
  /-- `DECU.LE`, `decode(payload, Unsigned, Little)` (R104). -/
  | decuLe (len : Nat)
  /-- `DECS.BE`, `decode(payload, Signed, Big)` (R105). -/
  | decsBe (len : Nat)
  /-- `DECS.LE`, `decode(payload, Signed, Little)` (R106). -/
  | decsLe (len : Nat)
  /-- `DECF.BE`, `decode(payload, Float, Big)` (R147). -/
  | decfBe (len : Nat)
  /-- `DECF.LE`, `decode(payload, Float, Little)` (R148). -/
  | decfLe (len : Nat)
  /-- `TOHOST.BE`, `to_host(bytes, Big)` (R82). -/
  | tohostBe (len : Nat)
  /-- `TOHOST.LE`, `to_host(bytes, Little)` (R83). -/
  | tohostLe (len : Nat)
  /-- `ENCU.BE`, `encode(Unsigned(v), Big)` (R124). -/
  | encuBe (len : Nat)
  /-- `ENCU.LE`, `encode(Unsigned(v), Little)` (R125). -/
  | encuLe (len : Nat)
  /-- `ENCS.BE`, `encode(Signed(v), Big)` (R126). -/
  | encsBe (len : Nat)
  /-- `ENCS.LE`, `encode(Signed(v), Little)` (R127). -/
  | encsLe (len : Nat)
  /-- `ENCF.BE`, `encode(Float(v), Big)` (R149). -/
  | encfBe (len : Nat)
  /-- `ENCF.LE`, `encode(Float(v), Little)` (R150). -/
  | encfLe (len : Nat)
  /-- `FROMHOST.BE`, `from_host(value, Big)` (R84). -/
  | fromhostBe (len : Nat)
  /-- `FROMHOST.LE`, `from_host(value, Little)` (R85). -/
  | fromhostLe (len : Nat)
deriving DecidableEq, Repr

/-- The number in the `LEN` field of an operation (R64). -/
def Instr.len : Instr → Nat
  | .decuBe n | .decuLe n | .decsBe n | .decsLe n | .decfBe n | .decfLe n
  | .tohostBe n | .tohostLe n | .encuBe n | .encuLe n | .encsBe n | .encsLe n
  | .encfBe n | .encfLe n | .fromhostBe n | .fromhostLe n => n

end Sys2Proof
end

