-- ==== Sys2Proof/Config.lean ====
section
/-! DEFINITION. The two build-time parameters of the unit (00_scope.md R7, R8; 10_state.md R34) and
the values this model's machine is built with.  There are no other parameters (R9). -/

namespace Sys2Proof

/-- A build of the unit: the parameters that are fixed when it is built and never change (R7, R8).
It is no state (R34): every function of the model that depends on a parameter takes it from here. -/
structure Build where
  /-- `HOST_ORDER`, the host's byte order (R7). -/
  hostOrder : Endianness
  /-- `NAN_WIDEN`, the result of widening a single-precision NaN (R8). -/
  nanWiden : BitVec 32 → Word

/-- The machine's `HOST_ORDER`: the spec's default, "Little" (R7, D7).  DESIGN CHOICE (log entry 5),
safe: no output depends on it (40_normalizer.md R86). -/
def Config.hostOrder : Endianness := .little

/-- The sign bit of the machine's `NAN_WIDEN(w)`: a FREE VALUE, left open by R8 and D18 (log entry 6). -/
opaque Config.nanSign : BitVec 32 → Bool

/-- The fraction field of the machine's `NAN_WIDEN(w)`, less one: a FREE VALUE (log entry 6).  R145 asks
of the fraction only that it is not 0; the 2^52 - 1 elements of this type are, each with one added,
exactly the fractions that are not 0, so nothing but the rule's own constraint binds the value. -/
opaque Config.nanFraction : BitVec 32 → Fin 4503599627370495

end Sys2Proof
end

