-- ==== Sys2Proof/WellFormed.lean ====
section
/-! DEFINITION. Which instructions a command word can carry (30_encoding.md R60, R64). -/

namespace Sys2Proof

/-- `LEN` is "an unsigned number 0 to 15"; "a length of 16 or more cannot be presented" (R64).
It is the one condition there is: every operation takes every value of the field (R68). -/
def Instr.wellFormed (i : Instr) : Bool := decide (i.len < 16)

end Sys2Proof
end

