-- ==== Sys2Proof/Decode.lean ====
section
/-! DEFINITION. The command word `CMD8` (30_encoding.md): its four fields, the decoder (R61 to R64, R67),
the operation map (R66) and the encoder written from that map.  No command word is illegal, reserved
or a hint (R68), so the decoder refuses none of the 256. -/

namespace Sys2Proof

/-- `DIR`, bit 7: 0 is wire-to-host, 1 is host-to-wire (R61). -/
def directionOf (cmd : Byte) : Direction :=
  match cmd.extractLsb' 7 1 with
  | 0#1 => .wireToHost
  | _ => .hostToWire

/-- `KIND`, bits 6 to 5: 00 Unsigned, 01 Signed, 10 Float, 11 Raw (R62). -/
def kindOf (cmd : Byte) : Kind :=
  match cmd.extractLsb' 5 2 with
  | 0b00#2 => .unsigned
  | 0b01#2 => .signed
  | 0b10#2 => .float
  | _ => .raw

/-- `ORD`, bit 4: 0 is Big, 1 is Little (R63). -/
def orderOf (cmd : Byte) : Endianness :=
  match cmd.extractLsb' 4 1 with
  | 0#1 => .big
  | _ => .little

/-- `LEN`, bits 3 to 0, "used as is: unsigned, not scaled, not shifted, not extended" (R64, R65). -/
def lenOf (cmd : Byte) : Nat := (cmd.extractLsb' 0 4).toNat

/-- The row of R66 that the three selecting fields name, with its `LEN` (R67). -/
def selectRow : Direction → Kind → Endianness → Nat → Instr
  | .wireToHost, .unsigned, .big => .decuBe
  | .wireToHost, .unsigned, .little => .decuLe
  | .wireToHost, .signed, .big => .decsBe
  | .wireToHost, .signed, .little => .decsLe
  | .wireToHost, .float, .big => .decfBe
  | .wireToHost, .float, .little => .decfLe
  | .wireToHost, .raw, .big => .tohostBe
  | .wireToHost, .raw, .little => .tohostLe
  | .hostToWire, .unsigned, .big => .encuBe
  | .hostToWire, .unsigned, .little => .encuLe
  | .hostToWire, .signed, .big => .encsBe
  | .hostToWire, .signed, .little => .encsLe
  | .hostToWire, .float, .big => .encfBe
  | .hostToWire, .float, .little => .encfLe
  | .hostToWire, .raw, .big => .fromhostBe
  | .hostToWire, .raw, .little => .fromhostLe

/-- The decoder of R67: split the fields, select the row.  Total, and unambiguous (R66, R68). -/
def decode (cmd : Byte) : Instr :=
  selectRow (directionOf cmd) (kindOf cmd) (orderOf cmd) (lenOf cmd)

/-- The column "match" of R66's map. -/
def matchWord : Instr → Byte
  | .decuBe _ => 0x00#8
  | .decuLe _ => 0x10#8
  | .decsBe _ => 0x20#8
  | .decsLe _ => 0x30#8
  | .decfBe _ => 0x40#8
  | .decfLe _ => 0x50#8
  | .tohostBe _ => 0x60#8
  | .tohostLe _ => 0x70#8
  | .encuBe _ => 0x80#8
  | .encuLe _ => 0x90#8
  | .encsBe _ => 0xA0#8
  | .encsLe _ => 0xB0#8
  | .encfBe _ => 0xC0#8
  | .encfLe _ => 0xD0#8
  | .fromhostBe _ => 0xE0#8
  | .fromhostLe _ => 0xF0#8

/-- The column "mask" of R66's map: `LEN` never changes which operation runs. -/
def matchMask : Byte := 0xF0#8

/-- The command word of an instruction: its row's match, with `LEN` in the four bits left free (R66). -/
def encode (i : Instr) : Byte := matchWord i ||| BitVec.ofNat 8 i.len

/-- What the decoder reads from an instruction's `nbits` bits `w`.  A command word has 8 bits, "one
length, no prefix and no second word" (R60); a word of another size is none. -/
def decodeTableWord (nbits w : Nat) : Option Instr :=
  if nbits = 8 ∧ w < 256 then some (decode (BitVec.ofNat 8 w)) else none

end Sys2Proof
end

