-- ==== Sys2Proof/Machine/State.lean ====
section
/-! DEFINITION. The machine's data: the ports of one transaction.  The unit itself keeps nothing
(10_state.md R20, R33); `State` is what stands on its five ports (R24), and whether the requester
drives the inputs (70_reset_and_hazards.md R191).  Log entries 1 to 4. -/

namespace Sys2Proof.Machine

/-- The ports of the unit (10_state.md R24). -/
structure State where
  /-- Does the requester drive `cmd` and `din` with definite values (R191, R194)? -/
  driven : Bool
  /-- Input `cmd`, the command word (R24). -/
  cmd : Byte
  /-- Input `din`, payload bytes or host value (R26). -/
  din : Word
  /-- Output `dout`, host value or payload bytes (R27). -/
  dout : Word
  /-- Output `lout`, the number of meaningful bytes of `dout` (R28). -/
  lout : BitVec 4
  /-- Output `status`, the outcome code (R29). -/
  status : BitVec 2
deriving DecidableEq, Repr

/-- The three outputs of one transaction (10_state.md R25). -/
structure Outputs where
  dout : Word
  lout : BitVec 4
  status : BitVec 2
deriving DecidableEq, Repr

/-- The outcome of an operation as the source has it, a value-level result (60_exceptions.md R170,
R171; D11): data with its length in bytes, or the one error, which carries no data. -/
inductive Conversion where
  | ok (dout : Word) (lout : Nat)
  | invalidLength
deriving DecidableEq, Repr

/-- There is no fault: the unit's one error is a value on `status` in the same transaction, and there
is no trap (60_exceptions.md R172, R175).  Nothing raises a fault, so the type has no constructor. -/
inductive Fault where
deriving DecidableEq, Repr

/-- Why the model gives no next state. -/
inductive Refusal where
  /-- `exec` only, for an instruction without a meaning: none is left.  Safe. -/
  | notModelled (mnemonic : String)
  /-- `step` only, while the requester drives no definite `(cmd, din)`: "a model has no transaction for
  such a moment" (70_reset_and_hazards.md R191, 93 U8).  Safe: nothing is proved of such a moment. -/
  | inputsNotDriven
deriving DecidableEq, Repr

/-- The unit before the requester drives it.  The spec gives the unit no reset and no reset value
(R32, R190), so every value here is the model's (DESIGN CHOICE, log entry 4): inputs not driven,
`cmd` and `din` zero, and the outputs `NCU(0, 0)`, since R25 ties the outputs to the inputs. -/
def State.reset : State where
  driven := false
  cmd := 0x00#8
  din := 0#64
  dout := 0#64
  lout := 0#4
  status := 0b01#2

end Sys2Proof.Machine
end

