-- ==== Sys2Proof/Machine/Ops.lean ====
section
/-! DEFINITION. The named operations: lanes and byte sequences (00_scope.md R12), the host image
(20_memory.md R44), the Byte-Order Normalizer's two functions (40_normalizer.md R80, R81), and what
the requester and the unit do to the ports. -/

namespace Sys2Proof.Machine

/-! ### Lanes and byte sequences -/

/-- `lane(d, i) = d[8*i+7 : 8*i]` (R12); `byte(v, k)` of 42_integer_encode.md is the same slice. -/
def lane (d : Word) (i : Nat) : Byte := d.extractLsb' (8 * i) 8

/-- `lanes(d, n)`, the sequence of lanes 0 to `n-1` (R12). -/
def lanes (d : Word) (n : Nat) : Bytes := (List.range n).map (lane d)

/-- `le_val(p)`: the first byte is the least significant (R12, R41). -/
def leVal : Bytes → Nat
  | [] => 0
  | b :: p => b.toNat + 2 ^ 8 * leVal p

/-- `be_val(p)`: the first byte is the most significant (R12, R41). -/
def beVal : Bytes → Nat
  | [] => 0
  | b :: p => b.toNat * 2 ^ (8 * p.length) + beVal p

/-- The pattern a byte sequence stands for in a wire order (20_memory.md R41). -/
def wireVal (order : Endianness) (p : Bytes) : Nat :=
  match order with
  | .little => leVal p
  | .big => beVal p

/-- `pack(p)`: byte `i` in lane `i`, zero lanes above (R12). -/
def pack (p : Bytes) : Word := BitVec.ofNat 64 (leVal p)

/-! ### The Byte-Order Normalizer -/

/-- `host_image(v)`, the 8 bytes in which the host lays out a 64-bit value (R44). -/
def hostImage (host : Endianness) (v : Word) : Bytes :=
  match host with
  | .little => (List.range 8).map fun i => lane v i
  | .big => (List.range 8).map fun i => lane v (7 - i)

/-- `host_value(B)`, the value that 8 bytes are in the host's layout (R44). -/
def hostValue (host : Endianness) (B : Bytes) : Word :=
  BitVec.ofNat 64 (wireVal host B)

/-- `to_host(B, order)`: "if `order` differs from host order, reverses the 8 bytes; otherwise returns
them unchanged" (R80). -/
def toHost (host : Endianness) (B : Bytes) (order : Endianness) : Word :=
  hostValue host (if order ≠ host then B.reverse else B)

/-- `from_host(v, order)`: "inverse operation" (R81). -/
def fromHost (host : Endianness) (v : Word) (order : Endianness) : Bytes :=
  if order ≠ host then (hostImage host v).reverse else hostImage host v

/-! ### The machine's build -/

/-- A double-precision NaN pattern: exponent field all ones, fraction `f + 1`, not 0 (R145). -/
def nanPattern (sign : Bool) (f : Fin 4503599627370495) : Word :=
  BitVec.ofBool sign ++ 0x7FF#11 ++ BitVec.ofNat 52 (f.val + 1)

/-- The build this machine runs: `HOST_ORDER` the spec's default, `NAN_WIDEN` free (R7, R8). -/
def build : Build where
  hostOrder := Config.hostOrder
  nanWiden w := nanPattern (Config.nanSign w) (Config.nanFraction w)

/-! ### The ports -/

/-- The requester drives both inputs with the values of one transaction (R194).  Until the step that
follows, the output fields keep what they held and stand for nothing (DESIGN CHOICE, log entry 12). -/
def State.drive (s : State) (cmd : Byte) (din : Word) : State :=
  { s with driven := true, cmd := cmd, din := din }

/-- The requester stops driving the inputs (R191).  DESIGN CHOICE, log entry 13: every port field keeps
what it held, where R191 gives the outputs no definite value, and R32 and 93 U8 none besides. -/
def State.release (s : State) : State := { s with driven := false }

/-- The outputs on the ports. -/
def State.outputs (s : State) : Outputs := ⟨s.dout, s.lout, s.status⟩

/-- The unit's outputs take the values of one transaction; the inputs are the requester's and stay as
they are (R24, R194). -/
def State.settle (s : State) (o : Outputs) : State :=
  { s with dout := o.dout, lout := o.lout, status := o.status }

/-- The command word of the transaction presented, if one is (R53: "an input port sampled in the same
transaction as the data"; R191). -/
def fetch (s : State) : Option Byte := if s.driven then some s.cmd else none

end Sys2Proof.Machine
end

