-- ==== Sys2Proof/Machine/Flags.lean ====
section
/-! DEFINITION. The status codes (10_state.md R29) and how an outcome stands on the output ports
(R27, R28; 60_exceptions.md R171).  There are no condition codes and no sticky flags, and the float
operations set no exception flag (R29, 43_float.md R146). -/

namespace Sys2Proof.Machine

/-- `status = 00`, `OK` (R29). -/
def statusOk : BitVec 2 := 0b00#2

/-- `status = 01`, `InvalidLength` (R29). -/
def statusInvalidLength : BitVec 2 := 0b01#2

/-- `status = 10`, reserved for a Frame Assembler's `PayloadTooLong`: the unit never produces it (R29,
R176), and no definition of the model but this one names it. -/
def statusPayloadTooLong : BitVec 2 := 0b10#2

/-- `raise InvalidLength`: the error outcome on the ports, `status <- 01`, `dout <- 0`, `lout <- 0`
(R171).  There is no trap: nothing is saved and control goes nowhere (R175). -/
def raiseInvalidLength : Outputs := ⟨0#64, 0#4, statusInvalidLength⟩

/-- An outcome on the output ports (R27, R28, R171). -/
def portsOf : Conversion → Outputs
  | .ok dout lout => ⟨dout, BitVec.ofNat 4 lout, statusOk⟩
  | .invalidLength => raiseInvalidLength

/-- One transaction takes place: the outputs become those of its outcome (R25, R48). -/
def complete (s : State) (c : Conversion) : Host.Outcome State Fault Refusal :=
  .next (s.settle (portsOf c))

end Sys2Proof.Machine
end

