-- ==== Sys2Proof/Machine/Operands.lean ====
section
/-! DEFINITION. How a payload becomes a 64-bit value and back: placement (20_memory.md R45), extension
(41_integer_decode.md R101), the lengths each kind permits (30_encoding.md R64), minimal lengths and
trimming (42_integer_encode.md R120 to R122), a float's bit pattern (43_float.md R140). -/

namespace Sys2Proof.Machine

/-- The two kinds of the integer codec (30_encoding.md R62). -/
inductive Signedness where
  | unsigned
  | signed
deriving DecidableEq, Repr

/-! ### Wire to host -/

/-- The lengths an integer decode permits, 1 to 8 (R64, R170). -/
def intLengthOk (L : Nat) : Bool := decide (¬ (L < 1 ∨ L > 8))

/-- The lengths a float decode permits, 4 and 8 (R64, R170). -/
def floatLengthOk (L : Nat) : Bool := decide (¬ (L ≠ 4 ∧ L ≠ 8))

/-- The payload's most significant byte: the last for Little order, the first for Big order (R101). -/
def msbByte (order : Endianness) (p : Bytes) : Byte :=
  match order with
  | .little => p.getLastD 0x00#8
  | .big => p.headD 0x00#8

/-- `ext_fill(p, L, kind, order)`, the extension byte (R101). -/
def extFill (kind : Signedness) (order : Endianness) (p : Bytes) : Byte :=
  match kind with
  | .unsigned => 0x00#8
  | .signed => if (msbByte order p).msb then 0xFF#8 else 0x00#8

/-- The working buffer after placement and extension (R45; R100 steps 1 to 3): Little order puts the
payload at offset 0, Big order ends it at offset 7, and the other lanes hold the fill byte. -/
def placed (order : Endianness) (fill : Byte) (p : Bytes) : Bytes :=
  match order with
  | .little => p ++ List.replicate (bufLanes - p.length) fill
  | .big => List.replicate (bufLanes - p.length) fill ++ p

/-- `dec_int(p, L, kind, order)` for a permitted length (R100). -/
def decInt (b : Build) (kind : Signedness) (order : Endianness) (p : Bytes) : Word :=
  toHost b.hostOrder (placed order (extFill kind order p) p) order

/-- `flt_pattern(p, 8, order)` (R140). -/
def fltPattern8 (b : Build) (order : Endianness) (p : Bytes) : Word :=
  toHost b.hostOrder p order

/-- `flt_pattern(p, 4, order)`: the 4 bytes placed with zero fill, the low 32 bits taken (R140). -/
def fltPattern4 (b : Build) (order : Endianness) (p : Bytes) : BitVec 32 :=
  (toHost b.hostOrder (placed order 0x00#8 p) order).setWidth 32

/-! ### Host to wire -/

/-- The loop of `minlen_u`, from `n` retained bytes down (R120). -/
def trimUnsigned (v : Word) : Nat → Nat
  | n + 2 => if lane v (n + 1) = 0x00#8 then trimUnsigned v (n + 1) else n + 2
  | n => n

/-- `minlen_u(v)`, the Unsigned minimal length (R120). -/
def minlenU (v : Word) : Nat := trimUnsigned v 8

/-- The loop of `minlen_s`: drop the top byte while it is pure sign extension and the byte below it
still shows the sign (R121). -/
def trimSigned (v : Word) (s : Bool) (fill : Byte) : Nat → Nat
  | n + 2 =>
    if lane v (n + 1) = fill ∧ (lane v n).msb = s then trimSigned v s fill (n + 1) else n + 2
  | n => n

/-- `minlen_s(v)`, the Signed minimal length (R121). -/
def minlenS (v : Word) : Nat := trimSigned v v.msb (if v.msb then 0xFF#8 else 0x00#8) 8

/-- The minimal length of a kind (R123 step 2). -/
def minlen (kind : Signedness) (v : Word) : Nat :=
  match kind with
  | .unsigned => minlenU v
  | .signed => minlenS v

/-- The `n` retained bytes of a wire-order buffer: the high-order bytes are removed from the end for
Little order, from the front for Big order (R122). -/
def retained (order : Endianness) (n : Nat) (W : Bytes) : Bytes :=
  match order with
  | .little => W.take n
  | .big => W.drop (bufLanes - n)

/-- `enc_int(v, kind, order)`, the payload bytes (R123); their number is `minlen kind v`. -/
def encInt (b : Build) (kind : Signedness) (order : Endianness) (v : Word) : Bytes :=
  retained order (minlen kind v) (fromHost b.hostOrder v order)

/-- `enc_flt(v, order)`: all 8 bytes, none dropped, none inspected (R141). -/
def encFlt (b : Build) (order : Endianness) (v : Word) : Bytes :=
  fromHost b.hostOrder v order

end Sys2Proof.Machine
end

