-- ==== Sys2Proof/Machine/FloatRepacker.lean ====
section
/-! DEFINITION. The Float Re-packer: the formats' fields (43_float.md R142), widening a single to a
double (R143 to R145), and the four float operations (R147 to R150).  Fields are moved; no real
number is computed and nothing is rounded (R146, R153). -/

namespace Sys2Proof.Machine

/-! ### The formats -/

/-- Sign of a single, `w[31]` (R142). -/
def singleSign (w : BitVec 32) : BitVec 1 := w.extractLsb' 31 1

/-- Exponent field of a single, `w[30:23]` (R142). -/
def singleExponent (w : BitVec 32) : BitVec 8 := w.extractLsb' 23 8

/-- Mantissa field of a single, `w[22:0]` (R142). -/
def singleMantissa (w : BitVec 32) : BitVec 23 := w.extractLsb' 0 23

/-- Sign of a double, `d[63]` (R142). -/
def doubleSign (d : Word) : BitVec 1 := d.extractLsb' 63 1

/-- Exponent field of a double, `d[62:52]` (R142). -/
def doubleExponent (d : Word) : BitVec 11 := d.extractLsb' 52 11

/-- Mantissa field of a double, `d[51:0]` (R142). -/
def doubleMantissa (d : Word) : BitVec 52 := d.extractLsb' 0 52

/-- A double from its three fields (R142). -/
def doubleOf (s : BitVec 1) (e : BitVec 11) (m : BitVec 52) : Word := s ++ e ++ m

/-- A single-precision NaN: `e = 255`, `m != 0` (R144, R145). -/
def isSingleNaN (w : BitVec 32) : Bool :=
  decide (singleExponent w = 255#8) && decide (singleMantissa w ≠ 0#23)

/-- A double-precision NaN: exponent field all ones, fraction not 0 (R145). -/
def isDoubleNaN (d : Word) : Bool :=
  decide (doubleExponent d = 0x7FF#11) && decide (doubleMantissa d ≠ 0#52)

/-! ### Widening -/

/-- The index of the highest 1 bit of `m` among bits `k` down to 0 (R144). -/
def highestOne (m : BitVec 23) : Nat → Nat
  | 0 => 0
  | k + 1 => if m.getLsbD (k + 1) then k + 1 else highestOne m k

/-- A subnormal single as the normalized double of the same value (R144): `k` the index of the highest
1 bit of `m`, exponent field `874 + k`, fraction `(m - 2^k) * 2^(52-k)`. -/
def widenSubnormal (s : BitVec 1) (m : BitVec 23) : Word :=
  let k := highestOne m 22
  doubleOf s (BitVec.ofNat 11 (874 + k)) (BitVec.ofNat 52 ((m.toNat - 2 ^ k) * 2 ^ (52 - k)))

/-- `widen(w)`: single to double (R143 to R145), by the class of `w`. -/
def widen (b : Build) (w : BitVec 32) : Word :=
  let s := singleSign w
  let e := singleExponent w
  let m := singleMantissa w
  if e = 0#8 then
    if m = 0#23 then doubleOf s 0#11 0#52 else widenSubnormal s m
  else if e = 255#8 then
    if m = 0#23 then doubleOf s 0x7FF#11 0#52 else b.nanWiden w
  else doubleOf s (BitVec.ofNat 11 (e.toNat + 896)) (m ++ 0#29)

/-- `NAN_WIDEN_default(w)`: sign and payload kept, quiet bit set (R145).  A build may use it; the
machine of this model does not, its `NAN_WIDEN` is free (log entry 6). -/
def nanWidenDefault (w : BitVec 32) : Word :=
  doubleOf (singleSign w) 0x7FF#11 (1#1 ++ (singleMantissa w).setWidth 22 ++ 0#29)

/-! ### The operations -/

/-- The steps the two float decodes share (R147, R148): the length check, then the pattern, widened
where it is a single. -/
def decodeFloat (b : Build) (order : Endianness) (L : Nat) (din : Word) : Conversion :=
  if floatLengthOk L then
    if L = 8 then .ok (fltPattern8 b order (lanes din 8)) 8
    else .ok (widen b (fltPattern4 b order (lanes din 4))) 8
  else .invalidLength

/-- The steps the two float encodes share (R141, R149, R150): always 8 bytes. -/
def encodeFloat (b : Build) (order : Endianness) (din : Word) : Conversion :=
  .ok (pack (encFlt b order din)) 8

/-- `DECF.BE` (R147). -/
def decfBe (b : Build) (L : Nat) (din : Word) : Conversion := decodeFloat b .big L din

/-- `DECF.LE` (R148). -/
def decfLe (b : Build) (L : Nat) (din : Word) : Conversion := decodeFloat b .little L din

/-- `ENCF.BE` (R149). -/
def encfBe (b : Build) (din : Word) : Conversion := encodeFloat b .big din

/-- `ENCF.LE` (R150). -/
def encfLe (b : Build) (din : Word) : Conversion := encodeFloat b .little din

/-- `DECF.BE` on the ports (R147). -/
def execDecfBe (len : Nat) (s : State) : Host.Outcome State Fault Refusal :=
  complete s (decfBe build len s.din)

/-- `DECF.LE` on the ports (R148). -/
def execDecfLe (len : Nat) (s : State) : Host.Outcome State Fault Refusal :=
  complete s (decfLe build len s.din)

/-- `ENCF.BE` on the ports (R149). -/
def execEncfBe (s : State) : Host.Outcome State Fault Refusal := complete s (encfBe build s.din)

/-- `ENCF.LE` on the ports (R150). -/
def execEncfLe (s : State) : Host.Outcome State Fault Refusal := complete s (encfLe build s.din)

end Sys2Proof.Machine
end

