-- ==== Sys2Proof/Machine/IntegerDecode.lean ====
section
/-! DEFINITION. Integer decode (41_integer_decode.md R103 to R106).  The length check comes first
(R100); the payload is lanes 0 to `L-1` of `din`, and no other lane is read (10_state.md R26). -/

namespace Sys2Proof.Machine

/-- The steps the four operations share (R100, R103 to R106). -/
def decodeInteger (b : Build) (kind : Signedness) (order : Endianness) (L : Nat) (din : Word) :
    Conversion :=
  if intLengthOk L then .ok (decInt b kind order (lanes din L)) 8 else .invalidLength

/-- `DECU.BE` (R103). -/
def decuBe (b : Build) (L : Nat) (din : Word) : Conversion := decodeInteger b .unsigned .big L din

/-- `DECU.LE` (R104). -/
def decuLe (b : Build) (L : Nat) (din : Word) : Conversion := decodeInteger b .unsigned .little L din

/-- `DECS.BE` (R105). -/
def decsBe (b : Build) (L : Nat) (din : Word) : Conversion := decodeInteger b .signed .big L din

/-- `DECS.LE` (R106). -/
def decsLe (b : Build) (L : Nat) (din : Word) : Conversion := decodeInteger b .signed .little L din

/-- `DECU.BE` on the ports (R103). -/
def execDecuBe (len : Nat) (s : State) : Host.Outcome State Fault Refusal :=
  complete s (decuBe build len s.din)

/-- `DECU.LE` on the ports (R104). -/
def execDecuLe (len : Nat) (s : State) : Host.Outcome State Fault Refusal :=
  complete s (decuLe build len s.din)

/-- `DECS.BE` on the ports (R105). -/
def execDecsBe (len : Nat) (s : State) : Host.Outcome State Fault Refusal :=
  complete s (decsBe build len s.din)

/-- `DECS.LE` on the ports (R106). -/
def execDecsLe (len : Nat) (s : State) : Host.Outcome State Fault Refusal :=
  complete s (decsLe build len s.din)

end Sys2Proof.Machine
end

