-- ==== Sys2Proof/Machine/IntegerEncode.lean ====
section
/-! DEFINITION. Integer encode (42_integer_encode.md R124 to R127).  It has no failing input (R123), and
`LEN` is not read (30_encoding.md R68 b).  Lanes at and above `lout` are zero (10_state.md R27, conflict
C10). -/

namespace Sys2Proof.Machine

/-- The steps the four operations share (R123 to R127). -/
def encodeInteger (b : Build) (kind : Signedness) (order : Endianness) (din : Word) : Conversion :=
  .ok (pack (encInt b kind order din)) (minlen kind din)

/-- `ENCU.BE` (R124). -/
def encuBe (b : Build) (din : Word) : Conversion := encodeInteger b .unsigned .big din

/-- `ENCU.LE` (R125). -/
def encuLe (b : Build) (din : Word) : Conversion := encodeInteger b .unsigned .little din

/-- `ENCS.BE` (R126). -/
def encsBe (b : Build) (din : Word) : Conversion := encodeInteger b .signed .big din

/-- `ENCS.LE` (R127). -/
def encsLe (b : Build) (din : Word) : Conversion := encodeInteger b .signed .little din

/-- `ENCU.BE` on the ports (R124). -/
def execEncuBe (s : State) : Host.Outcome State Fault Refusal := complete s (encuBe build s.din)

/-- `ENCU.LE` on the ports (R125). -/
def execEncuLe (s : State) : Host.Outcome State Fault Refusal := complete s (encuLe build s.din)

/-- `ENCS.BE` on the ports (R126). -/
def execEncsBe (s : State) : Host.Outcome State Fault Refusal := complete s (encsBe build s.din)

/-- `ENCS.LE` on the ports (R127). -/
def execEncsLe (s : State) : Host.Outcome State Fault Refusal := complete s (encsLe build s.din)

end Sys2Proof.Machine
end

