-- ==== Sys2Proof/Machine/Normalizer.lean ====
section
/-! DEFINITION. The four `Raw` operations (40_normalizer.md R82 to R85).  For each: its outcome as a
function of the build and `din`, and its meaning on the ports.  `LEN` is not read (R68 b). -/

namespace Sys2Proof.Machine

/-- `to_host` on the ports: the 8 lanes of `din` normalized to a host value (R82, R83). -/
def normalizeIn (b : Build) (order : Endianness) (din : Word) : Conversion :=
  .ok (toHost b.hostOrder (lanes din 8) order) 8

/-- `from_host` on the ports: the host value laid out in 8 lanes (R84, R85). -/
def normalizeOut (b : Build) (order : Endianness) (din : Word) : Conversion :=
  .ok (pack (fromHost b.hostOrder din order)) 8

/-- `TOHOST.BE` (R82). -/
def tohostBe (b : Build) (din : Word) : Conversion := normalizeIn b .big din

/-- `TOHOST.LE` (R83). -/
def tohostLe (b : Build) (din : Word) : Conversion := normalizeIn b .little din

/-- `FROMHOST.BE` (R84). -/
def fromhostBe (b : Build) (din : Word) : Conversion := normalizeOut b .big din

/-- `FROMHOST.LE` (R85). -/
def fromhostLe (b : Build) (din : Word) : Conversion := normalizeOut b .little din

/-- `TOHOST.BE` on the ports (R82). -/
def execTohostBe (s : State) : Host.Outcome State Fault Refusal := complete s (tohostBe build s.din)

/-- `TOHOST.LE` on the ports (R83). -/
def execTohostLe (s : State) : Host.Outcome State Fault Refusal := complete s (tohostLe build s.din)

/-- `FROMHOST.BE` on the ports (R84). -/
def execFromhostBe (s : State) : Host.Outcome State Fault Refusal :=
  complete s (fromhostBe build s.din)

/-- `FROMHOST.LE` on the ports (R85). -/
def execFromhostLe (s : State) : Host.Outcome State Fault Refusal :=
  complete s (fromhostLe build s.din)

end Sys2Proof.Machine
end

