-- ==== Sys2Proof/Machine/Dispatch.lean ====
section
/-! DEFINITION. One arm for each operation of 30_encoding.md R66.  The operations that do not read `LEN`
(R68 b) do not pass it on. -/

namespace Sys2Proof.Machine

def exec (i : Instr) (s : State) : Host.Outcome State Fault Refusal :=
  match i with
  | .decuBe len => Sys2Proof.Machine.execDecuBe len s
  | .decuLe len => Sys2Proof.Machine.execDecuLe len s
  | .decsBe len => Sys2Proof.Machine.execDecsBe len s
  | .decsLe len => Sys2Proof.Machine.execDecsLe len s
  | .decfBe len => Sys2Proof.Machine.execDecfBe len s
  | .decfLe len => Sys2Proof.Machine.execDecfLe len s
  | .tohostBe _ => Sys2Proof.Machine.execTohostBe s
  | .tohostLe _ => Sys2Proof.Machine.execTohostLe s
  | .encuBe _ => Sys2Proof.Machine.execEncuBe s
  | .encuLe _ => Sys2Proof.Machine.execEncuLe s
  | .encsBe _ => Sys2Proof.Machine.execEncsBe s
  | .encsLe _ => Sys2Proof.Machine.execEncsLe s
  | .encfBe _ => Sys2Proof.Machine.execEncfBe s
  | .encfLe _ => Sys2Proof.Machine.execEncfLe s
  | .fromhostBe _ => Sys2Proof.Machine.execFromhostBe s
  | .fromhostLe _ => Sys2Proof.Machine.execFromhostLe s

end Sys2Proof.Machine
end

