-- ==== Sys2Proof/Machine/Step.lean ====
section
/-! DEFINITION. One step is one transaction (10_state.md R25): the command word on `cmd` is decoded
(30_encoding.md R67) and its operation gives the outputs.  Log entries 2 and 3. -/

namespace Sys2Proof.Machine

/-- One transaction, on the inputs the requester holds (R25, R194).  While they are not driven there is
no transaction (70_reset_and_hazards.md R191). -/
def step (s : State) : Host.Outcome State Fault Refusal :=
  match fetch s with
  | some cmd => exec (decode cmd) s
  | none => .refused .inputsNotDriven

/-- The requester presents the command word `w` (log entry 2): the next step runs exactly it.  `din`
stays as it is. -/
def State.withFetchWord (s : State) (nbits w : Nat) : State :=
  s.drive (BitVec.ofNat 8 (w % 2 ^ nbits)) s.din

end Sys2Proof.Machine
end

