-- ==== Sys2Proof/Machine/Ncu.lean ====
section
/-! DEFINITION. The unit as the one total function `(dout, lout, status) = NCU(cmd, din)` of 10_state.md
R25, for every build (R7, R8, R34).  `exec` runs it with the machine's build; what must hold on every
build is stated of this function (43_float.md R145). -/

namespace Sys2Proof.Machine

/-- The outcome of an operation on `din`, by the rows of 30_encoding.md R66. -/
def convert (b : Build) (i : Instr) (din : Word) : Conversion :=
  match i with
  | .decuBe len => decuBe b len din
  | .decuLe len => decuLe b len din
  | .decsBe len => decsBe b len din
  | .decsLe len => decsLe b len din
  | .decfBe len => decfBe b len din
  | .decfLe len => decfLe b len din
  | .tohostBe _ => tohostBe b din
  | .tohostLe _ => tohostLe b din
  | .encuBe _ => encuBe b din
  | .encuLe _ => encuLe b din
  | .encsBe _ => encsBe b din
  | .encsLe _ => encsLe b din
  | .encfBe _ => encfBe b din
  | .encfLe _ => encfLe b din
  | .fromhostBe _ => fromhostBe b din
  | .fromhostLe _ => fromhostLe b din

/-- `NCU(cmd, din)` (R25). -/
def ncu (b : Build) (cmd : Byte) (din : Word) : Outputs := portsOf (convert b (decode cmd) din)

/-- `NAN_WIDEN` meets its one constraint: a NaN is widened to a NaN (R8, R145). -/
def Admissible (b : Build) : Prop :=
  ∀ w : BitVec 32, isSingleNaN w = true → isDoubleNaN (b.nanWiden w) = true

/-- The build with both defaults of the spec (R7, R145). -/
def defaultBuild : Build where
  hostOrder := .little
  nanWiden := nanWidenDefault

end Sys2Proof.Machine
end

