-- ==== Sys2Proof/Machine/Assembly.lean ====
section
/-! DEFINITION. How a requester states a transaction and reads its answer (30_encoding.md R69 to R71;
10_state.md R31).  Lines and source calls are data here; their spelling as text is notation only
(D25, log entry 11).  No part of this is inside the unit. -/

namespace Sys2Proof.Machine

/-- The eight functions that R69 names, without the order suffix. -/
inductive Mnemonic where
  | tohost
  | fromhost
  | decu
  | decs
  | decf
  | encu
  | encs
  | encf
deriving DecidableEq, Repr

/-- The direction of a mnemonic (R61, R66). -/
def Mnemonic.direction : Mnemonic → Direction
  | .tohost | .decu | .decs | .decf => .wireToHost
  | .fromhost | .encu | .encs | .encf => .hostToWire

/-- The kind of a mnemonic (R62, R66). -/
def Mnemonic.kind : Mnemonic → Kind
  | .tohost | .fromhost => .raw
  | .decu | .encu => .unsigned
  | .decs | .encs => .signed
  | .decf | .encf => .float

/-- The operand of a line (R69): a byte list in wire sequence, a raw 64-bit pattern (an `f64` operand is
given by its pattern), or a signed decimal number. -/
inductive Operand where
  | bytes (p : Bytes)
  | pattern (v : Word)
  | signed (n : Int)
deriving DecidableEq, Repr

/-- A transaction written as one line (R69), with the explicit `len=<k>` if it has one (R70). -/
structure Line where
  mnemonic : Mnemonic
  order : Endianness
  operand : Operand
  len : Option Nat
deriving DecidableEq, Repr

/-- `LEN` and `din` of a line (R70), or none where R69 gives the mnemonic no such operand: a `TOHOST`
list "must have exactly 8 bytes", and a signed decimal is for `ENCS` and is an `i64`. -/
def assembleOperand (m : Mnemonic) (operand : Operand) : Option (Nat × Word) :=
  match m, operand with
  | .tohost, .bytes p => if p.length = 8 then some (0, pack p) else none
  | .decu, .bytes p | .decs, .bytes p | .decf, .bytes p =>
    some (min p.length 15, pack (p.take 8))
  | .fromhost, .pattern v | .encu, .pattern v | .encs, .pattern v | .encf, .pattern v => some (0, v)
  | .encs, .signed n =>
    if -(2 ^ 63) ≤ n ∧ n < 2 ^ 63 then some (0, BitVec.ofInt 64 n) else none
  | _, _ => none

/-- A line as `(cmd, din)` (R70); a `LEN` above 15 cannot be presented (R64). -/
def assemble (l : Line) : Option (Byte × Word) := do
  let (len, din) ← assembleOperand l.mnemonic l.operand
  let i := selectRow l.mnemonic.direction l.mnemonic.kind l.order (l.len.getD len)
  if i.wellFormed then some (encode i, din) else none

/-- The source's HostValue, a union tagged by its kind (R31); on the unit the tag is the `KIND` of the
command. -/
inductive HostValue where
  | u64 (v : Word)
  | i64 (v : Word)
  | f64 (v : Word)
deriving DecidableEq, Repr

/-- The source's NumericKind (30_encoding.md R62). -/
inductive NumericKind where
  | unsigned
  | signed
  | float
deriving DecidableEq, Repr

/-- The pseudo-instructions: the source's function spellings, and `BSWAP64` (R71). -/
inductive SourceCall where
  | toHost (bytes : Bytes) (order : Endianness)
  | fromHost (value : Word) (order : Endianness)
  | decode (payload : Bytes) (kind : NumericKind) (order : Endianness)
  | encode (value : HostValue) (order : Endianness)
  | bswap64 (x : Word)
deriving DecidableEq, Repr

/-- Each pseudo-instruction expands to exactly one line (R71). -/
def SourceCall.expand : SourceCall → Line
  | .toHost bytes order => ⟨.tohost, order, .bytes bytes, none⟩
  | .fromHost value order => ⟨.fromhost, order, .pattern value, none⟩
  | .decode payload .unsigned order => ⟨.decu, order, .bytes payload, none⟩
  | .decode payload .signed order => ⟨.decs, order, .bytes payload, none⟩
  | .decode payload .float order => ⟨.decf, order, .bytes payload, none⟩
  | .encode (.u64 v) order => ⟨.encu, order, .pattern v, none⟩
  | .encode (.i64 v) order => ⟨.encs, order, .pattern v, none⟩
  | .encode (.f64 v) order => ⟨.encf, order, .pattern v, none⟩
  | .bswap64 x => ⟨.tohost, .big, .bytes (lanes x 8), none⟩

/-- What a requester reads from the outputs (R69). -/
inductive Reading where
  | value (v : Word)
  | bytes (p : Bytes)
  | invalidLength
deriving DecidableEq, Repr

/-- The requester reads `status` first (60_exceptions.md R177), then a value after a wire-to-host
operation, or `lout` bytes after a host-to-wire one (10_state.md R27, R28). -/
def readOutputs (cmd : Byte) (o : Outputs) : Reading :=
  if o.status ≠ statusOk then .invalidLength
  else match directionOf cmd with
    | .wireToHost => .value o.dout
    | .hostToWire => .bytes (lanes o.dout o.lout.toNat)

/-- One line presented to a unit of the given build and its answer read (R69). -/
def transact (b : Build) (l : Line) : Option Reading :=
  (assemble l).map fun t => readOutputs t.1 (ncu b t.1 t.2)

end Sys2Proof.Machine
end

