-- ==== Sys2Proof/Machine/FloatValue.lean ====
section
/-! DEFINITION. The number a float pattern stands for, by the formula of 43_float.md R142 and, for a
subnormal single, R144.  The unit computes no such number (R153): this is "there so that a model can
state and prove that `widen` preserves the value". -/

namespace Sys2Proof.Machine

/-- `(-1)^s` (R142). -/
def signFactor (s : BitVec 1) : ℚ := if s = 1#1 then -1 else 1

/-- The value of a single: the formula for a normalized pattern (R142), `(-1)^s * 2^(-149) * uint(m)` for
a subnormal (R144), which is 0 where `m = 0`; none for an infinity or a NaN. -/
def singleValue (w : BitVec 32) : Option ℚ :=
  let s := singleSign w
  let e := singleExponent w
  let m := singleMantissa w
  if e = 255#8 then none
  else if e = 0#8 then some (signFactor s * (m.toNat / 2 ^ 149))
  else some (signFactor s * 2 ^ ((e.toNat : ℤ) - 127) * (1 + m.toNat / 2 ^ 23))

/-- The value of a double: the formula for a normalized pattern (R142), 0 for a zero; none for every
other pattern, for which the spec states no value. -/
def doubleValue (d : Word) : Option ℚ :=
  let s := doubleSign d
  let e := doubleExponent d
  let m := doubleMantissa d
  if e = 0x7FF#11 then none
  else if e = 0#11 then if m = 0#52 then some 0 else none
  else some (signFactor s * 2 ^ ((e.toNat : ℤ) - 1023) * (1 + m.toNat / 2 ^ 52))

end Sys2Proof.Machine
end

