-- ==== Sys2Proof/Safety.lean ====
section
/-! DEFINITION. The terms in which claims about runs of the unit are stated. -/

namespace Sys2Proof.Machine

/-- Outputs the unit can give (10_state.md R28, R29; 60_exceptions.md R171): on `OK` 1 to 8 meaningful
bytes, on `InvalidLength` zeros; no other status code. -/
abbrev Outputs.Legal (o : Outputs) : Prop :=
  (o.status = 0b00#2 ∧ 1 ≤ o.lout.toNat ∧ o.lout.toNat ≤ 8) ∨
    (o.status = 0b01#2 ∧ o.dout = 0#64 ∧ o.lout = 0#4)

/-- The ports show the answer to the inputs on them (R25). -/
abbrev State.Settled (s : State) : Prop := s.outputs = ncu build s.cmd s.din

/-- A requester's sequence of transactions, one step each, with the outputs it samples; none if a step
gives no next state. -/
def session (s : State) : List (Byte × Word) → Option (List Outputs)
  | [] => some []
  | (cmd, din) :: rest =>
    match step (s.drive cmd din) with
    | .next s' => (session s' rest).map (s'.outputs :: ·)
    | .fault _ => none
    | .refused _ => none

end Sys2Proof.Machine
end

