-- ==== Sys2Proof/Certificates/Slice0/Obligations.lean ====
section
/-! DEFINITION. The statements for the provers.  `ncu b` is the unit of build `b` as the function of
10_state.md R25; `exec` and `step` run the machine of this model.  A port value that the spec gives as a
number is written as that number. -/

open Sys2Proof Sys2Proof.Machine

/-! ### The command word -/

/-- R60, R66, R67: every operation with every `LEN` the field admits is read back from its word. -/
def Obligations.DecodeReadsEncodedInstruction : Prop :=
  ∀ i : Instr, i.wellFormed = true → decode (encode i) = i

/-- R66, R68: all 256 words carry an operation, and the word is all there is to it. -/
def Obligations.EncodeCoversEveryCommandWord : Prop :=
  ∀ cmd : Byte, (decode cmd).wellFormed = true ∧ encode (decode cmd) = cmd

/-- R66: `cmd & mask == match` selects the row, and `LEN` is the low four bits. -/
def Obligations.OpcodeRowSelectedByMatchAndMask : Prop :=
  ∀ cmd : Byte,
    let L := cmd.toNat % 16
    (cmd &&& 0xF0#8 = 0x00#8 ↔ decode cmd = .decuBe L) ∧
    (cmd &&& 0xF0#8 = 0x10#8 ↔ decode cmd = .decuLe L) ∧
    (cmd &&& 0xF0#8 = 0x20#8 ↔ decode cmd = .decsBe L) ∧
    (cmd &&& 0xF0#8 = 0x30#8 ↔ decode cmd = .decsLe L) ∧
    (cmd &&& 0xF0#8 = 0x40#8 ↔ decode cmd = .decfBe L) ∧
    (cmd &&& 0xF0#8 = 0x50#8 ↔ decode cmd = .decfLe L) ∧
    (cmd &&& 0xF0#8 = 0x60#8 ↔ decode cmd = .tohostBe L) ∧
    (cmd &&& 0xF0#8 = 0x70#8 ↔ decode cmd = .tohostLe L) ∧
    (cmd &&& 0xF0#8 = 0x80#8 ↔ decode cmd = .encuBe L) ∧
    (cmd &&& 0xF0#8 = 0x90#8 ↔ decode cmd = .encuLe L) ∧
    (cmd &&& 0xF0#8 = 0xA0#8 ↔ decode cmd = .encsBe L) ∧
    (cmd &&& 0xF0#8 = 0xB0#8 ↔ decode cmd = .encsLe L) ∧
    (cmd &&& 0xF0#8 = 0xC0#8 ↔ decode cmd = .encfBe L) ∧
    (cmd &&& 0xF0#8 = 0xD0#8 ↔ decode cmd = .encfLe L) ∧
    (cmd &&& 0xF0#8 = 0xE0#8 ↔ decode cmd = .fromhostBe L) ∧
    (cmd &&& 0xF0#8 = 0xF0#8 ↔ decode cmd = .fromhostLe L)

/-- The command words of the spec's own examples (R82, R103 to R106, R126, R147 to R150; 95 V14). -/
def Obligations.SpecExampleWordsDecode : Prop :=
  decode 0b00000010#8 = .decuBe 2 ∧ decode 0b00010010#8 = .decuLe 2 ∧
  decode 0b00100010#8 = .decsBe 2 ∧ decode 0b00110010#8 = .decsLe 2 ∧
  decode 0b01000100#8 = .decfBe 4 ∧ decode 0b01011000#8 = .decfLe 8 ∧
  decode 0b01100000#8 = .tohostBe 0 ∧ decode 0b10100000#8 = .encsBe 0 ∧
  decode 0b11010000#8 = .encfLe 0 ∧ decode 0b11101111#8 = .fromhostBe 15

/-- R25, R67: a step is `exec` of the decoded word, with nothing added.  R191: no transaction without
driven inputs. -/
def Obligations.StepRunsDecodedInstruction : Prop :=
  ∀ s : State,
    (s.driven = true → step s = exec (decode s.cmd) s) ∧
    (s.driven = false → step s = .refused .inputsNotDriven)

/-- R68 (b): on the ten operations that take no length, `LEN` has no effect and no value errs. -/
def Obligations.LengthFieldIgnoredWhereNotRead : Prop :=
  ∀ (b : Build) (n m : Nat) (din : Word),
    convert b (.tohostBe n) din = convert b (.tohostBe m) din ∧
    convert b (.tohostLe n) din = convert b (.tohostLe m) din ∧
    convert b (.fromhostBe n) din = convert b (.fromhostBe m) din ∧
    convert b (.fromhostLe n) din = convert b (.fromhostLe m) din ∧
    convert b (.encuBe n) din = convert b (.encuBe m) din ∧
    convert b (.encuLe n) din = convert b (.encuLe m) din ∧
    convert b (.encsBe n) din = convert b (.encsBe m) din ∧
    convert b (.encsLe n) din = convert b (.encsLe m) din ∧
    convert b (.encfBe n) din = convert b (.encfBe m) din ∧
    convert b (.encfLe n) din = convert b (.encfLe m) din ∧
    ∀ i ∈ [Instr.tohostBe n, .tohostLe n, .fromhostBe n, .fromhostLe n, .encuBe n, .encuLe n,
        .encsBe n, .encsLe n, .encfBe n, .encfLe n],
      convert b i din ≠ .invalidLength

/-! ### Each operation's result, complete: every `LEN`, every `din` -/

/-- R82. -/
def Obligations.TohostBeReadsBigOrderBytes : Prop :=
  (∀ n : BitVec 4, decode (0b0110#4 ++ n) = .tohostBe n.toNat) ∧
  ∀ (L : Nat) (s : State), exec (.tohostBe L) s =
    .next { s with dout := BitVec.ofNat 64 (beVal (lanes s.din 8)), lout := 8#4, status := 0b00#2 }

/-- R83. -/
def Obligations.TohostLeReadsLittleOrderBytes : Prop :=
  (∀ n : BitVec 4, decode (0b0111#4 ++ n) = .tohostLe n.toNat) ∧
  ∀ (L : Nat) (s : State),
    exec (.tohostLe L) s = .next { s with dout := s.din, lout := 8#4, status := 0b00#2 } ∧
    s.din = BitVec.ofNat 64 (leVal (lanes s.din 8))

/-- R84. -/
def Obligations.FromhostBeLaysOutBigOrder : Prop :=
  (∀ n : BitVec 4, decode (0b1110#4 ++ n) = .fromhostBe n.toNat) ∧
  ∀ (L : Nat) (s : State), exec (.fromhostBe L) s =
    .next { s with
      dout := pack [lane s.din 7, lane s.din 6, lane s.din 5, lane s.din 4,
        lane s.din 3, lane s.din 2, lane s.din 1, lane s.din 0]
      lout := 8#4, status := 0b00#2 }

/-- R85. -/
def Obligations.FromhostLeLaysOutLittleOrder : Prop :=
  (∀ n : BitVec 4, decode (0b1111#4 ++ n) = .fromhostLe n.toNat) ∧
  ∀ (L : Nat) (s : State),
    exec (.fromhostLe L) s = .next { s with dout := s.din, lout := 8#4, status := 0b00#2 } ∧
    s.din = pack [lane s.din 0, lane s.din 1, lane s.din 2, lane s.din 3,
      lane s.din 4, lane s.din 5, lane s.din 6, lane s.din 7]

/-- R103: `zext_64(be_val(p))`, or the error outcome of R171. -/
def Obligations.DecuBeZeroExtendsBigPayload : Prop :=
  (∀ n : BitVec 4, decode (0b0000#4 ++ n) = .decuBe n.toNat) ∧
  ∀ (L : Nat) (s : State), exec (.decuBe L) s =
    .next (if L < 1 ∨ L > 8 then { s with dout := 0#64, lout := 0#4, status := 0b01#2 }
      else { s with
        dout := BitVec.ofNat 64 (beVal (lanes s.din L)), lout := 8#4, status := 0b00#2 })

/-- R104: `zext_64(le_val(p))`, which is `din & (2^(8L) - 1)`. -/
def Obligations.DecuLeZeroExtendsLittlePayload : Prop :=
  (∀ n : BitVec 4, decode (0b0001#4 ++ n) = .decuLe n.toNat) ∧
  ∀ (L : Nat) (s : State),
    exec (.decuLe L) s =
      .next (if L < 1 ∨ L > 8 then { s with dout := 0#64, lout := 0#4, status := 0b01#2 }
        else { s with
          dout := BitVec.ofNat 64 (leVal (lanes s.din L)), lout := 8#4, status := 0b00#2 }) ∧
    (L ≤ 8 → BitVec.ofNat 64 (leVal (lanes s.din L)) = s.din &&& BitVec.ofNat 64 (2 ^ (8 * L) - 1))

/-- R105: `sext_64(be_val(p))`, the pattern having `8*L` bits. -/
def Obligations.DecsBeSignExtendsBigPayload : Prop :=
  (∀ n : BitVec 4, decode (0b0010#4 ++ n) = .decsBe n.toNat) ∧
  ∀ (L : Nat) (s : State), exec (.decsBe L) s =
    .next (if L < 1 ∨ L > 8 then { s with dout := 0#64, lout := 0#4, status := 0b01#2 }
      else { s with
        dout := (BitVec.ofNat (8 * L) (beVal (lanes s.din L))).signExtend 64
        lout := 8#4, status := 0b00#2 })

/-- R106: `sext_64(le_val(p))`, which is `sext_64(din[8L-1:0])`. -/
def Obligations.DecsLeSignExtendsLittlePayload : Prop :=
  (∀ n : BitVec 4, decode (0b0011#4 ++ n) = .decsLe n.toNat) ∧
  ∀ (L : Nat) (s : State),
    exec (.decsLe L) s =
      .next (if L < 1 ∨ L > 8 then { s with dout := 0#64, lout := 0#4, status := 0b01#2 }
        else { s with
          dout := (BitVec.ofNat (8 * L) (leVal (lanes s.din L))).signExtend 64
          lout := 8#4, status := 0b00#2 }) ∧
    (L ≤ 8 → BitVec.ofNat (8 * L) (leVal (lanes s.din L)) = s.din.setWidth (8 * L))

/-- R124, with R120's least length: `out[j] = byte(din, n-1-j)`. -/
def Obligations.EncuBeEncodesMinimalBigPayload : Prop :=
  (∀ n : BitVec 4, decode (0b1000#4 ++ n) = .encuBe n.toNat) ∧
  ∀ (L : Nat) (s : State),
    let n := minlenU s.din
    exec (.encuBe L) s =
      .next { s with
        dout := pack ((List.range n).map fun j => lane s.din (n - 1 - j))
        lout := BitVec.ofNat 4 n, status := 0b00#2 }

/-- R125: `out[j] = byte(din, j)`, and so `dout = din` for every value. -/
def Obligations.EncuLeEncodesMinimalLittlePayload : Prop :=
  (∀ n : BitVec 4, decode (0b1001#4 ++ n) = .encuLe n.toNat) ∧
  ∀ (L : Nat) (s : State),
    let n := minlenU s.din
    exec (.encuLe L) s =
      .next { s with dout := s.din, lout := BitVec.ofNat 4 n, status := 0b00#2 } ∧
    s.din = pack ((List.range n).map fun j => lane s.din j)

/-- R126, with R121's least length: `out[j] = byte(din, n-1-j)`. -/
def Obligations.EncsBeEncodesMinimalBigPayload : Prop :=
  (∀ n : BitVec 4, decode (0b1010#4 ++ n) = .encsBe n.toNat) ∧
  ∀ (L : Nat) (s : State),
    let n := minlenS s.din
    exec (.encsBe L) s =
      .next { s with
        dout := pack ((List.range n).map fun j => lane s.din (n - 1 - j))
        lout := BitVec.ofNat 4 n, status := 0b00#2 }

/-- R127 and conflict C10: `out[j] = byte(din, j)`, that is `dout = zext_64(din[8n-1:0])`, so dropped
`0xFF` lanes come out as `0x00`. -/
def Obligations.EncsLeEncodesMinimalLittlePayload : Prop :=
  (∀ n : BitVec 4, decode (0b1011#4 ++ n) = .encsLe n.toNat) ∧
  ∀ (L : Nat) (s : State),
    let n := minlenS s.din
    exec (.encsLe L) s =
      .next { s with
        dout := pack ((List.range n).map fun j => lane s.din j)
        lout := BitVec.ofNat 4 n, status := 0b00#2 } ∧
    pack ((List.range n).map fun j => lane s.din j) = (s.din.setWidth (8 * n)).setWidth 64

/-- R147: lengths 4 and 8, every other length the error outcome of R171. -/
def Obligations.DecfBeDecodesBigFloat : Prop :=
  (∀ n : BitVec 4, decode (0b0100#4 ++ n) = .decfBe n.toNat) ∧
  ∀ (L : Nat) (s : State), exec (.decfBe L) s =
    .next (if L ≠ 4 ∧ L ≠ 8 then { s with dout := 0#64, lout := 0#4, status := 0b01#2 }
      else { s with
        dout := if L = 8 then BitVec.ofNat 64 (beVal (lanes s.din 8))
          else widen build (BitVec.ofNat 32 (beVal (lanes s.din 4)))
        lout := 8#4, status := 0b00#2 })

/-- R148: `L = 8` gives `din`, `L = 4` gives `widen(din[31:0])`. -/
def Obligations.DecfLeDecodesLittleFloat : Prop :=
  (∀ n : BitVec 4, decode (0b0101#4 ++ n) = .decfLe n.toNat) ∧
  ∀ (L : Nat) (s : State), exec (.decfLe L) s =
    .next (if L ≠ 4 ∧ L ≠ 8 then { s with dout := 0#64, lout := 0#4, status := 0b01#2 }
      else { s with
        dout := if L = 8 then s.din else widen build (s.din.setWidth 32)
        lout := 8#4, status := 0b00#2 })

/-- R149: always 8 bytes. -/
def Obligations.EncfBeEmitsEightBigBytes : Prop :=
  (∀ n : BitVec 4, decode (0b1100#4 ++ n) = .encfBe n.toNat) ∧
  ∀ (L : Nat) (s : State), exec (.encfBe L) s =
    .next { s with
      dout := pack [lane s.din 7, lane s.din 6, lane s.din 5, lane s.din 4,
        lane s.din 3, lane s.din 2, lane s.din 1, lane s.din 0]
      lout := 8#4, status := 0b00#2 }

/-- R150: always 8 bytes, `dout = din`. -/
def Obligations.EncfLeEmitsEightLittleBytes : Prop :=
  (∀ n : BitVec 4, decode (0b1101#4 ++ n) = .encfLe n.toNat) ∧
  ∀ (L : Nat) (s : State),
    exec (.encfLe L) s = .next { s with dout := s.din, lout := 8#4, status := 0b00#2 } ∧
    s.din = pack [lane s.din 0, lane s.din 1, lane s.din 2, lane s.din 3,
      lane s.din 4, lane s.din 5, lane s.din 6, lane s.din 7]

/-! ### The Byte-Order Normalizer -/

/-- R80 and R81: the closed forms for either host order, and that the two are inverse. -/
def Obligations.NormalizerClosedFormAndInverse : Prop :=
  ∀ host order : Endianness,
    (∀ B : Bytes, B.length = 8 →
      toHost host B .little = BitVec.ofNat 64 (leVal B) ∧
      toHost host B .big = BitVec.ofNat 64 (beVal B) ∧
      fromHost host (toHost host B order) order = B) ∧
    ∀ v : Word,
      fromHost host v .little = (List.range 8).map (fun i => lane v i) ∧
      fromHost host v .big = (List.range 8).map (fun i => lane v (7 - i)) ∧
      toHost host (fromHost host v order) order = v

/-- R86: neither function of the normalizer and no output of any transaction depends on `HOST_ORDER`. -/
def Obligations.HostOrderUnobservable : Prop :=
  (∀ (order : Endianness) (B : Bytes) (v : Word), B.length = 8 →
    toHost .little B order = toHost .big B order ∧
    fromHost .little v order = fromHost .big v order) ∧
  ∀ (nan : BitVec 32 → Word) (cmd : Byte) (din : Word),
    ncu ⟨.little, nan⟩ cmd din = ncu ⟨.big, nan⟩ cmd din

/-- R87: the four `Raw` operations as functions from `din` to `dout`, and the involution. -/
def Obligations.RawOperationsAsPortFunctions : Prop :=
  ∀ (b : Build) (n : BitVec 4) (din : Word),
    (∀ i < 8, lane (ncu b (0b0110#4 ++ n) din).dout i = lane din (7 - i)) ∧
    (∀ i < 8, lane (ncu b (0b1110#4 ++ n) din).dout i = lane din (7 - i)) ∧
    (ncu b (0b0111#4 ++ n) din).dout = din ∧
    (ncu b (0b1111#4 ++ n) din).dout = din ∧
    (ncu b (0b0110#4 ++ n) (ncu b (0b0110#4 ++ n) din).dout).dout = din

/-! ### Integer decode -/

/-- R45: where the payload's bytes and the extension lanes stand in the 8-lane buffer. -/
def Obligations.PayloadPlacedInBuffer : Prop :=
  ∀ (p : Bytes) (fill : Byte), 1 ≤ p.length → p.length ≤ 8 →
    let L := p.length
    (placed .little fill p).length = 8 ∧ (placed .big fill p).length = 8 ∧
    (∀ j < L, (placed .little fill p)[j]? = p[j]?) ∧
    (∀ i < 8, L ≤ i → (placed .little fill p)[i]? = some fill) ∧
    (∀ j < L, (placed .big fill p)[8 - L + j]? = p[j]?) ∧
    (∀ i < 8 - L, (placed .big fill p)[i]? = some fill)

/-- R102: the algorithm of R100 and R101 is zero or sign extension of the payload's pattern. -/
def Obligations.IntegerDecodeClosedForm : Prop :=
  ∀ (b : Build) (p : Bytes), 1 ≤ p.length → p.length ≤ 8 →
    decInt b .unsigned .little p = BitVec.ofNat 64 (leVal p) ∧
    decInt b .unsigned .big p = BitVec.ofNat 64 (beVal p) ∧
    decInt b .signed .little p = (BitVec.ofNat (8 * p.length) (leVal p)).signExtend 64 ∧
    decInt b .signed .big p = (BitVec.ofNat (8 * p.length) (beVal p)).signExtend 64

/-- R107 (a) to (e). -/
def Obligations.IntegerDecodeLaws : Prop :=
  ∀ (b : Build) (order : Endianness),
    (∀ p : Bytes, 1 ≤ p.length → p.length ≤ 8 →
      (decInt b .unsigned order p = decInt b .signed order p ↔
        (msbByte order p).msb = false ∨ p.length = 8) ∧
      (∀ kind : Signedness,
        (decInt b kind order p).setWidth (8 * p.length) = BitVec.ofNat (8 * p.length) (wireVal order p)) ∧
      (∀ i < 64, 8 * p.length ≤ i →
        (decInt b .unsigned order p).getLsbD i = false ∧
        (decInt b .signed order p).getLsbD i =
          (decInt b .signed order p).getLsbD (8 * p.length - 1)) ∧
      (∀ kind : Signedness, decInt b kind .big p = decInt b kind .little p.reverse)) ∧
    (∀ (kind : Signedness) (L : Nat) (din din' : Word), (∀ i < L, lane din i = lane din' i) →
      decodeInteger b kind order L din = decodeInteger b kind order L din')

/-- R108: high-order extension bytes do not change the value. -/
def Obligations.NonMinimalPayloadDecodesAlike : Prop :=
  ∀ (b : Build) (kind : Signedness) (p : Bytes) (k : Nat), 1 ≤ p.length → p.length + k ≤ 8 →
    decInt b kind .little (p ++ List.replicate k (extFill kind .little p)) = decInt b kind .little p ∧
    decInt b kind .big (List.replicate k (extFill kind .big p) ++ p) = decInt b kind .big p

/-- R26, R107 (d): the outputs of the six decodes depend on lanes 0 to `LEN-1` of `din` alone. -/
def Obligations.DecodeIgnoresLanesAboveLength : Prop :=
  ∀ (b : Build) (cmd : Byte) (din din' : Word),
    cmd.toNat < 0x60 →
    (∀ i < cmd.toNat % 16, lane din i = lane din' i) →
    ncu b cmd din = ncu b cmd din'

/-- R49: what a decode of the first `L'` bytes of an `L`-byte payload sees. -/
def Obligations.ShorterDecodeSeesLowOrHighBytes : Prop :=
  ∀ (b : Build) (din : Word) (L L' : Nat), 1 ≤ L' → L' < L → L ≤ 8 →
    (decInt b .unsigned .little (lanes din L')).toNat =
      (decInt b .unsigned .little (lanes din L)).toNat % 2 ^ (8 * L') ∧
    (decInt b .unsigned .big (lanes din L')).toNat =
      (decInt b .unsigned .big (lanes din L)).toNat / 2 ^ (8 * (L - L'))

/-! ### Integer encode -/

/-- R120: `minlen_u(v)` is the least `n` in 1 to 8 with `uint(v) < 2^(8n)`; zero takes one byte. -/
def Obligations.UnsignedMinimalLength : Prop :=
  ∀ v : Word,
    1 ≤ minlenU v ∧ minlenU v ≤ 8 ∧ v.toNat < 2 ^ (8 * minlenU v) ∧
    ∀ n, 1 ≤ n → v.toNat < 2 ^ (8 * n) → minlenU v ≤ n

/-- R121: `minlen_s(v)` is the least `n` in 1 to 8 with `-2^(8n-1) <= sint(v) <= 2^(8n-1) - 1`. -/
def Obligations.SignedMinimalLength : Prop :=
  ∀ v : Word,
    1 ≤ minlenS v ∧ minlenS v ≤ 8 ∧
    (-(2 ^ (8 * minlenS v - 1)) ≤ v.toInt ∧ v.toInt ≤ 2 ^ (8 * minlenS v - 1) - 1) ∧
    ∀ n, 1 ≤ n → -(2 ^ (8 * n - 1)) ≤ v.toInt → v.toInt ≤ 2 ^ (8 * n - 1) - 1 → minlenS v ≤ n

/-- R122: the retained bytes of the wire-order buffer, in terms of the value. -/
def Obligations.RetainedBytesBySignificance : Prop :=
  ∀ (host : Endianness) (v : Word) (n : Nat), 1 ≤ n → n ≤ 8 →
    retained .little n (fromHost host v .little) = (List.range n).map (fun j => lane v j) ∧
    retained .big n (fromHost host v .big) = (List.range n).map (fun j => lane v (n - 1 - j))

/-- R128 (c): no payload shorter than the encoder's decodes to the value. -/
def Obligations.EncodeLengthIsMinimal : Prop :=
  ∀ (b : Build) (kind : Signedness) (order : Endianness) (v : Word) (p : Bytes),
    1 ≤ p.length → p.length < (encInt b kind order v).length → decInt b kind order p ≠ v

/-- R128 (d): the two minimal lengths compared. -/
def Obligations.SignedLengthAgainstUnsigned : Prop :=
  ∀ v : Word,
    (v.msb = false → minlenU v ≤ minlenS v ∧
      (minlenS v = minlenU v + 1 ↔ (lane v (minlenU v - 1)).msb = true ∧ minlenU v < 8)) ∧
    (v.msb = true → minlenU v = 8)

/-- R109: decoding the output of the matching encode, at the length it reports, gives `v` back. -/
def Obligations.IntegerRoundTrip : Prop :=
  ∀ (b : Build) (n : BitVec 4) (v : Word),
    (let o := ncu b (0b1000#4 ++ n) v;
      ncu b (0b0000#4 ++ o.lout) o.dout = ⟨v, 8#4, 0b00#2⟩) ∧
    (let o := ncu b (0b1001#4 ++ n) v;
      ncu b (0b0001#4 ++ o.lout) o.dout = ⟨v, 8#4, 0b00#2⟩) ∧
    (let o := ncu b (0b1010#4 ++ n) v;
      ncu b (0b0010#4 ++ o.lout) o.dout = ⟨v, 8#4, 0b00#2⟩) ∧
    (let o := ncu b (0b1011#4 ++ n) v;
      ncu b (0b0011#4 ++ o.lout) o.dout = ⟨v, 8#4, 0b00#2⟩)

/-- R54: for every host-to-wire operation the Big sequence is the reverse of the Little one. -/
def Obligations.BigOutputReversesLittleOutput : Prop :=
  ∀ (b : Build) (n m : BitVec 4) (v : Word),
    ∀ ops ∈ [(0b1000#4, 0b1001#4), (0b1010#4, 0b1011#4), (0b1100#4, 0b1101#4), (0b1110#4, 0b1111#4)],
      let big := ncu b (ops.1 ++ n) v
      let little := ncu b (ops.2 ++ m) v
      big.lout = little.lout ∧
      lanes big.dout big.lout.toNat = (lanes little.dout little.lout.toNat).reverse

/-! ### The Float Re-packer -/

/-- R140: the bit pattern of a 4-byte or 8-byte payload, for either host order. -/
def Obligations.FloatPatternClosedForm : Prop :=
  ∀ (b : Build) (p : Bytes),
    (p.length = 8 → fltPattern8 b .little p = BitVec.ofNat 64 (leVal p) ∧
      fltPattern8 b .big p = BitVec.ofNat 64 (beVal p)) ∧
    (p.length = 4 → fltPattern4 b .little p = BitVec.ofNat 32 (leVal p) ∧
      fltPattern4 b .big p = BitVec.ofNat 32 (beVal p))

/-- R143: a normalized single, `{ s, (uint(e) + 896)[10:0], m, 29'b0 }`. -/
def Obligations.WidenNormalizedSingle : Prop :=
  ∀ (b : Build) (s : BitVec 1) (e : BitVec 8) (m : BitVec 23), 1 ≤ e.toNat → e.toNat ≤ 254 →
    widen b (s ++ e ++ m) = s ++ BitVec.ofNat 11 (e.toNat + 896) ++ m ++ 0#29

/-- R144: zero, subnormal (its highest 1 bit at `k`) and infinity. -/
def Obligations.WidenZeroSubnormalInfinity : Prop :=
  ∀ (b : Build) (s : BitVec 1),
    widen b (s ++ 0#8 ++ 0#23) = s ++ 0#63 ∧
    widen b (s ++ 255#8 ++ 0#23) = s ++ 0b11111111111#11 ++ 0#52 ∧
    ∀ (m : BitVec 23) (k : Nat), 2 ^ k ≤ m.toNat → m.toNat < 2 ^ (k + 1) →
      widen b (s ++ 0#8 ++ m) =
        s ++ BitVec.ofNat 11 (874 + k) ++ BitVec.ofNat 52 ((m.toNat - 2 ^ k) * 2 ^ (52 - k))

/-- R145: a NaN is widened to a NaN, by the machine's free `NAN_WIDEN` and by the spec's default. -/
def Obligations.NanWidensToNan : Prop :=
  (∀ (b : Build) (w : BitVec 32), isSingleNaN w = true → widen b w = b.nanWiden w) ∧
  Admissible build ∧ Admissible defaultBuild ∧
  ∀ (s : BitVec 1) (m : BitVec 23),
    nanWidenDefault (s ++ 255#8 ++ m) =
      s ++ 0b11111111111#11 ++ 1#1 ++ m.extractLsb' 0 22 ++ 0#29

/-- R142 to R145, R153 (95 L9): `widen` keeps the sign of every single that is no NaN and the value of
every finite one, gives an infinity (exponent field all ones, fraction 0) for an infinity and for no other
single, a NaN for no other pattern than a NaN, and is injective off the NaNs. -/
def Obligations.WidenPreservesValue : Prop :=
  ∀ b : Build, Admissible b →
    (∀ w : BitVec 32, isDoubleNaN (widen b w) = isSingleNaN w) ∧
    (∀ w : BitVec 32, isSingleNaN w = false →
      doubleSign (widen b w) = singleSign w ∧ doubleValue (widen b w) = singleValue w) ∧
    (∀ w : BitVec 32, isSingleNaN w = false →
      ((doubleExponent (widen b w) = 0x7FF#11 ∧ doubleMantissa (widen b w) = 0#52) ↔
        (singleExponent w = 255#8 ∧ singleMantissa w = 0#23))) ∧
    (∀ w w' : BitVec 32, isSingleNaN w = false → isSingleNaN w' = false →
      widen b w = widen b w' → w = w')

/-- R151: every 64-bit pattern comes back bit for bit through 8 bytes, in both orders. -/
def Obligations.FloatRoundTrip : Prop :=
  ∀ (b : Build) (n : BitVec 4) (d : Word),
    ncu b (0b0100#4 ++ 8#4) (ncu b (0b1100#4 ++ n) d).dout = ⟨d, 8#4, 0b00#2⟩ ∧
    ncu b (0b0101#4 ++ 8#4) (ncu b (0b1101#4 ++ n) d).dout = ⟨d, 8#4, 0b00#2⟩

/-! ### Errors, outputs, and what a transaction leaves alone -/

/-- R170: when `InvalidLength` is raised, for every build: on `LEN` alone, whatever `din` is. -/
def Obligations.InvalidLengthRaisedExactlyWhen : Prop :=
  ∀ (b : Build) (cmd : Byte) (din : Word),
    let L := cmd.toNat % 16
    ((ncu b cmd din).status = 0b01#2 ↔
      (cmd.toNat / 16 < 4 ∧ (L = 0 ∨ L ≥ 9)) ∨
      ((cmd.toNat / 16 = 4 ∨ cmd.toNat / 16 = 5) ∧ L ≠ 4 ∧ L ≠ 8))

/-- R171, R175: on the error outcome the data outputs are zero, the inputs stay, and the transaction after
it answers as if the failed one had never happened. -/
def Obligations.ErrorOutcomeLeavesNothingBehind : Prop :=
  ∀ (s s' : State), step s = .next s' → s'.status = 0b01#2 →
    s'.dout = 0#64 ∧ s'.lout = 0#4 ∧ s'.cmd = s.cmd ∧ s'.din = s.din ∧
    ∀ (cmd : Byte) (din : Word), step (s'.drive cmd din) = step (s.drive cmd din)

/-- R28, R29: every answer is legal, and `lout` is 8 on success except of an integer encode. -/
def Obligations.OutputsAreLegal : Prop :=
  ∀ (b : Build) (cmd : Byte) (din : Word),
    (ncu b cmd din).Legal ∧
    ((ncu b cmd din).status = 0b00#2 → ¬ (8 ≤ cmd.toNat / 16 ∧ cmd.toNat / 16 < 12) →
      (ncu b cmd din).lout = 8#4)

/-- The ports are legal, and show the answer to the inputs on them, after every step from every state;
a step keeps both (R25, R28, R29). -/
def Obligations.StepKeepsPortsLegalAndSettled : Prop :=
  ∀ s s' : State, step s = .next s' →
    s'.outputs.Legal ∧ s'.Settled ∧ s'.driven = true

/-- The model's reset state (log entry 4) meets the invariant: its outputs are those of its inputs. -/
def Obligations.ResetPortsLegalAndSettled : Prop :=
  State.reset.outputs.Legal ∧ State.reset.Settled ∧ State.reset.driven = false

/-- The frame of all 16 operations: `exec` writes the three outputs and nothing else. -/
def Obligations.ExecLeavesInputsUnchanged : Prop :=
  ∀ (i : Instr) (s s' : State), exec i s = .next s' →
    s'.driven = s.driven ∧ s'.cmd = s.cmd ∧ s'.din = s.din

/-- R30, R172: every operation completes from every state, with the outputs `NCU` gives. -/
def Obligations.EveryTransactionCompletes : Prop :=
  (∀ (i : Instr) (s : State), exec i s = .next (s.settle (portsOf (convert build i s.din)))) ∧
  ∀ (s : State) (cmd : Byte) (din : Word),
    ∃ s', step (s.drive cmd din) = .next s' ∧ s'.outputs = ncu build cmd din

/-- R25: two transactions with equal inputs give equal outputs, whatever stood on the outputs before. -/
def Obligations.OutputsDependOnInputsAlone : Prop :=
  ∀ s t s' t' : State, s.cmd = t.cmd → s.din = t.din →
    step s = .next s' → step t = .next t' → s'.outputs = t'.outputs

/-- R48: repeating a transaction gives the same outputs and changes nothing. -/
def Obligations.RepeatedTransactionChangesNothing : Prop :=
  ∀ s s' : State, step s = .next s' → step s' = .next s'

/-- R51, R193: in any sequence of transactions, each answers `NCU` of its own inputs. -/
def Obligations.SessionAnswersEachTransactionAlone : Prop :=
  ∀ (s : State) (ts : List (Byte × Word)),
    session s ts = some (ts.map fun t => ncu build t.1 t.2)

/-! ### The source's calls -/

/-- R64, R70, R71: an integer or float decode call of a payload of any length, 16 and more included. -/
def Obligations.DecodeCallOfAnyLength : Prop :=
  ∀ (b : Build) (p : Bytes) (order : Endianness),
    let w := wireVal order p
    transact b (SourceCall.decode p .unsigned order).expand =
      some (if p.length < 1 ∨ p.length > 8 then .invalidLength else .value (BitVec.ofNat 64 w)) ∧
    transact b (SourceCall.decode p .signed order).expand =
      some (if p.length < 1 ∨ p.length > 8 then .invalidLength
        else .value ((BitVec.ofNat (8 * p.length) w).signExtend 64)) ∧
    transact b (SourceCall.decode p .float order).expand =
      some (if p.length = 8 then .value (BitVec.ofNat 64 w)
        else if p.length = 4 then .value (widen b (BitVec.ofNat 32 w)) else .invalidLength)

/-- R109, R151, R71 (95 T5, T11): for every host value and both orders, `decode(encode(v), kind, order)` of
the bytes the requester reads is `v`. -/
def Obligations.SourceRoundTrip : Prop :=
  ∀ (b : Build) (v : Word) (order : Endianness),
    (∃ p, transact b (SourceCall.encode (.u64 v) order).expand = some (.bytes p) ∧
      transact b (SourceCall.decode p .unsigned order).expand = some (.value v)) ∧
    (∃ p, transact b (SourceCall.encode (.i64 v) order).expand = some (.bytes p) ∧
      transact b (SourceCall.decode p .signed order).expand = some (.value v)) ∧
    (∃ p, transact b (SourceCall.encode (.f64 v) order).expand = some (.bytes p) ∧
      p.length = 8 ∧
      transact b (SourceCall.decode p .float order).expand = some (.value v))

/-- R71, R87: `to_host`, `from_host` and `BSWAP64` as calls; a `to_host` list that has not 8 bytes is no
transaction (R70). -/
def Obligations.NormalizerCalls : Prop :=
  ∀ (b : Build) (p : Bytes) (v : Word) (order : Endianness),
    (p.length ≠ 8 → transact b (SourceCall.toHost p order).expand = none) ∧
    transact b (SourceCall.fromHost v order).expand = some (.bytes (fromHost b.hostOrder v order)) ∧
    transact b (SourceCall.toHost (fromHost b.hostOrder v order) order).expand = some (.value v) ∧
    transact b (SourceCall.bswap64 v).expand = some (.value (pack (lanes v 8).reverse))
end

