-- ==== Sys2Proof/Laws/Bytes.lean ====
section
/-! SUPPORT. Lanes and the two numeric readings of a byte sequence (00_scope.md R12). -/

namespace Sys2Proof.Machine

/-! ### The two readings -/

@[simp] theorem leVal_nil : leVal [] = 0 := rfl

@[simp] theorem leVal_cons (b : Byte) (p : Bytes) : leVal (b :: p) = b.toNat + 2 ^ 8 * leVal p := rfl

theorem leVal_append (p q : Bytes) : leVal (p ++ q) = leVal p + 2 ^ (8 * p.length) * leVal q := by
  induction p with
  | nil => simp
  | cons b p ih =>
    simp only [List.cons_append, leVal_cons, ih, List.length_cons, Nat.mul_add, Nat.pow_add]
    ring

/-- A sequence of `n` bytes stands for fewer than `2^(8n)` values. -/
theorem leVal_lt (p : Bytes) : leVal p < 2 ^ (8 * p.length) := by
  induction p with
  | nil => simp
  | cons b p ih =>
    have hb := b.isLt
    simp only [leVal_cons, List.length_cons, Nat.mul_add, Nat.pow_add]
    omega

/-- `be_val(p)` is `le_val(rev(p))`. -/
theorem beVal_eq_leVal_reverse (p : Bytes) : beVal p = leVal p.reverse := by
  induction p with
  | nil => rfl
  | cons b p ih => simp [beVal, ih, leVal_append]; ring

theorem leVal_eq_beVal_reverse (p : Bytes) : leVal p = beVal p.reverse := by
  simp [beVal_eq_leVal_reverse]

theorem beVal_lt (p : Bytes) : beVal p < 2 ^ (8 * p.length) := by
  simpa [beVal_eq_leVal_reverse] using leVal_lt p.reverse

/-- A sequence is determined by its length and either reading. -/
theorem leVal_injective {p q : Bytes} (hl : p.length = q.length) (h : leVal p = leVal q) : p = q := by
  induction p generalizing q with
  | nil => simpa using hl.symm
  | cons b p ih =>
    cases q with
    | nil => simp at hl
    | cons c q =>
      have hb := b.isLt
      have hc := c.isLt
      simp only [leVal_cons] at h
      have hbc : b = c := BitVec.eq_of_toNat_eq (by omega)
      have hpq : leVal p = leVal q := by omega
      rw [hbc, ih (by simpa using hl) hpq]

@[simp] theorem leVal_replicate_zero (k : Nat) : leVal (List.replicate k 0#8) = 0 := by
  induction k with
  | zero => rfl
  | succ k ih => simp [List.replicate_succ, ih]

/-- The extension bytes of a negative value, `2^(8k) - 1`. -/
theorem leVal_replicate_ones (k : Nat) :
    leVal (List.replicate k 255#8) + 1 = 2 ^ (8 * k) := by
  induction k with
  | zero => rfl
  | succ k ih =>
    simp only [List.replicate_succ, leVal_cons, Nat.mul_add, Nat.pow_add, ← ih]
    simp
    ring

/-! ### Lanes -/

theorem lane_toNat (d : Word) (i : Nat) : (lane d i).toNat = d.toNat / 2 ^ (8 * i) % 2 ^ 8 := by
  simp [lane, Nat.shiftRight_eq_div_pow]

@[simp] theorem lanes_length (d : Word) (n : Nat) : (lanes d n).length = n := by simp [lanes]

theorem lanes_succ (d : Word) (n : Nat) : lanes d (n + 1) = lanes d n ++ [lane d n] := by
  simp [lanes, List.range_succ]

theorem lanes_getElem (d : Word) {n i : Nat} (h : i < (lanes d n).length) :
    (lanes d n)[i] = lane d i := by simp [lanes]

theorem leVal_lanes (d : Word) (n : Nat) : leVal (lanes d n) = d.toNat % 2 ^ (8 * n) := by
  induction n with
  | zero => simp [lanes, Nat.mod_one]
  | succ n ih =>
    rw [lanes_succ, leVal_append, ih, lanes_length, Nat.mul_add, Nat.pow_add, Nat.mod_mul]
    simp [lane_toNat]

theorem pack_toNat {p : Bytes} (h : p.length ≤ 8) : (pack p).toNat = leVal p := by
  have : 2 ^ (8 * p.length) ≤ 2 ^ 64 := Nat.pow_le_pow_right (by decide) (by omega)
  have := leVal_lt p
  simp [pack]
  omega

/-- What is packed can be read back. -/
theorem lanes_pack {p : Bytes} (h : p.length ≤ 8) : lanes (pack p) p.length = p := by
  refine leVal_injective (by simp) ?_
  rw [leVal_lanes, pack_toNat h, Nat.mod_eq_of_lt (leVal_lt p)]

@[simp] theorem pack_lanes (d : Word) : pack (lanes d 8) = d := by
  refine BitVec.eq_of_toNat_eq ?_
  rw [pack_toNat (by simp), leVal_lanes]
  exact Nat.mod_eq_of_lt d.isLt

theorem lane_pack {p : Bytes} (h : p.length = 8) {i : Nat} (hi : i < 8) :
    lane (pack p) i = p[i]'(by omega) := by
  have hl := lanes_pack (p := p) (by omega)
  rw [h] at hl
  rw [← lanes_getElem (pack p) (n := 8) (by simpa)]
  congr 1

/-- The sign bit of a byte of the value is a bit of the value. -/
theorem lane_msb (v : Word) (n : Nat) : (lane v n).msb = v.getLsbD (8 * n + 7) := by
  simp [lane, BitVec.msb_eq_getLsbD_last]

/-- One more byte of the value. -/
theorem toNat_mod_succ (v : Word) (n : Nat) :
    v.toNat % 2 ^ (8 * (n + 1)) = v.toNat % 2 ^ (8 * n) + 2 ^ (8 * n) * (lane v n).toNat := by
  rw [← leVal_lanes, lanes_succ, leVal_append, leVal_lanes]
  simp

/-- A shorter read is a prefix of a longer one. -/
theorem lanes_take (d : Word) {m n : Nat} (h : m ≤ n) : (lanes d n).take m = lanes d m := by
  simp [lanes, ← List.map_take, List.take_range, Nat.min_eq_left h]

end Sys2Proof.Machine
end

