-- ==== Sys2Proof/Laws/Float.lean ====
section
/-! SUPPORT. The fields of the two float formats (43_float.md R142), the highest 1 bit of a mantissa
(R144), and that a NaN pattern is one (R145). -/

namespace Sys2Proof.Machine

/-! ### Fields -/

@[simp] theorem doubleSign_doubleOf (s : BitVec 1) (e : BitVec 11) (m : BitVec 52) :
    doubleSign (doubleOf s e m) = s := by
  apply BitVec.eq_of_getLsbD_eq
  intro i hi
  obtain rfl : i = 0 := by omega
  simp only [doubleSign, doubleOf, BitVec.getLsbD_extractLsb', BitVec.getLsbD_append]
  simp

@[simp] theorem doubleExponent_doubleOf (s : BitVec 1) (e : BitVec 11) (m : BitVec 52) :
    doubleExponent (doubleOf s e m) = e := by
  apply BitVec.eq_of_getLsbD_eq
  intro i hi
  simp only [doubleExponent, doubleOf, BitVec.getLsbD_extractLsb', BitVec.getLsbD_append]
  simp [hi]

@[simp] theorem doubleMantissa_doubleOf (s : BitVec 1) (e : BitVec 11) (m : BitVec 52) :
    doubleMantissa (doubleOf s e m) = m := by
  apply BitVec.eq_of_getLsbD_eq
  intro i hi
  simp only [doubleMantissa, doubleOf, BitVec.getLsbD_extractLsb', BitVec.getLsbD_append]
  simp [hi]

@[simp] theorem singleSign_append (s : BitVec 1) (e : BitVec 8) (m : BitVec 23) :
    singleSign (s ++ e ++ m) = s := by
  apply BitVec.eq_of_getLsbD_eq
  intro i hi
  obtain rfl : i = 0 := by omega
  simp only [singleSign, BitVec.getLsbD_extractLsb', BitVec.getLsbD_append]
  simp

@[simp] theorem singleExponent_append (s : BitVec 1) (e : BitVec 8) (m : BitVec 23) :
    singleExponent (s ++ e ++ m) = e := by
  apply BitVec.eq_of_getLsbD_eq
  intro i hi
  simp only [singleExponent, BitVec.getLsbD_extractLsb', BitVec.getLsbD_append]
  simp [hi]

@[simp] theorem singleMantissa_append (s : BitVec 1) (e : BitVec 8) (m : BitVec 23) :
    singleMantissa (s ++ e ++ m) = m := by
  apply BitVec.eq_of_getLsbD_eq
  intro i hi
  simp only [singleMantissa, BitVec.getLsbD_extractLsb', BitVec.getLsbD_append]
  simp [hi]

/-! ### The highest 1 bit -/

/-- `highestOne m n` is the bit `k` that is 1 with zeros above it up to `n`. -/
theorem highestOne_eq {m : BitVec 23} {n k : Nat} (hk : k ≤ n) (h1 : m.getLsbD k = true)
    (h0 : ∀ j, k < j → j ≤ n → m.getLsbD j = false) : highestOne m n = k := by
  induction n with
  | zero => simp [highestOne]; omega
  | succ n ih =>
    rw [highestOne]
    obtain rfl | h := Nat.eq_or_lt_of_le hk
    · simp [h1]
    · simpa [h0 (n + 1) (by omega) (by omega)] using ih (by omega) fun j a b => h0 j a (by omega)

/-! ### NaN patterns -/

/-- Every pattern the free `NAN_WIDEN` can give meets R145's constraint. -/
theorem nanPattern_isDoubleNaN (s : Bool) (f : Fin 4503599627370495) :
    isDoubleNaN (nanPattern s f) = true := by
  have hf := f.isLt
  have h : nanPattern s f = doubleOf (BitVec.ofBool s) 0x7FF#11 (BitVec.ofNat 52 (f.val + 1)) := rfl
  have hm : BitVec.ofNat 52 (f.val + 1) ≠ 0#52 := by
    intro he
    have := congrArg BitVec.toNat he
    simp at this
    omega
  simp [isDoubleNaN, h, hm]

end Sys2Proof.Machine
end

