-- ==== Sys2Proof/Laws/Ops.lean ====
section
/-! SUPPORT. What each shared operation of the codec gives: the normalizer (40_normalizer.md R80, R81),
placement and extension (20_memory.md R45, 41_integer_decode.md R101), trimming (42_integer_encode.md
R120 to R122). -/

namespace Sys2Proof.Machine

/-! ### The normalizer, whatever the host order -/

theorem toHost_little (host : Endianness) (B : Bytes) :
    toHost host B .little = BitVec.ofNat 64 (leVal B) := by
  cases host <;> simp [toHost, hostValue, wireVal, beVal_eq_leVal_reverse]

theorem toHost_big (host : Endianness) (B : Bytes) :
    toHost host B .big = BitVec.ofNat 64 (beVal B) := by
  cases host <;> simp [toHost, hostValue, wireVal, beVal_eq_leVal_reverse]

theorem hostImage_big (v : Word) : hostImage .big v = (lanes v 8).reverse := rfl

theorem hostImage_little (v : Word) : hostImage .little v = lanes v 8 := rfl

theorem fromHost_little (host : Endianness) (v : Word) : fromHost host v .little = lanes v 8 := by
  cases host <;> simp [fromHost, hostImage_big, hostImage_little]

theorem fromHost_big (host : Endianness) (v : Word) :
    fromHost host v .big = (lanes v 8).reverse := by
  cases host <;> simp [fromHost, hostImage_big, hostImage_little]

/-! ### Placement and extension -/

@[simp] theorem placed_length {order : Endianness} {fill : Byte} {p : Bytes} (h : p.length ≤ 8) :
    (placed order fill p).length = 8 := by
  cases order <;> simp [placed, bufLanes, h]

theorem leVal_placed_little (fill : Byte) (p : Bytes) :
    leVal (placed .little fill p) =
      leVal p + 2 ^ (8 * p.length) * leVal (List.replicate (8 - p.length) fill) :=
  leVal_append _ _

theorem beVal_placed_big (fill : Byte) (p : Bytes) :
    beVal (placed .big fill p) =
      beVal p + 2 ^ (8 * p.length) * leVal (List.replicate (8 - p.length) fill) := by
  simp [placed, beVal_eq_leVal_reverse, leVal_append]

/-- Reversal exchanges the two placements. -/
theorem placed_reverse (fill : Byte) (p : Bytes) :
    (placed .big fill p).reverse = placed .little fill p.reverse := by
  simp [placed]

/-- The fill byte is one of two. -/
theorem extFill_cases (kind : Signedness) (order : Endianness) (p : Bytes) :
    extFill kind order p = 0x00#8 ∨ extFill kind order p = 0xFF#8 := by
  cases kind with
  | unsigned => exact .inl rfl
  | signed => simp only [extFill]; split <;> simp

@[simp] theorem msbByte_reverse (p : Bytes) : msbByte .big p.reverse = msbByte .little p := by
  simp only [msbByte]
  rw [List.headD_eq_head?_getD, List.getLastD_eq_getLast?, List.head?_reverse]

@[simp] theorem extFill_reverse (kind : Signedness) (p : Bytes) :
    extFill kind .big p.reverse = extFill kind .little p := by
  cases kind <;> simp [extFill]

/-! ### Trimming -/

/-- `trimUnsigned` stops at the least length, at least 1, above which every byte is zero. -/
theorem trimUnsigned_spec (v : Word) (n : Nat) (hn : 1 ≤ n) :
    1 ≤ trimUnsigned v n ∧ trimUnsigned v n ≤ n ∧
      (∀ k, trimUnsigned v n ≤ k → k < n → lane v k = 0x00#8) ∧
      (trimUnsigned v n = 1 ∨ lane v (trimUnsigned v n - 1) ≠ 0x00#8) := by
  induction n with
  | zero => omega
  | succ n ih =>
    cases n with
    | zero => exact ⟨Nat.le_refl 1, Nat.le_refl 1, fun k h h' => absurd h (by simp [trimUnsigned]; omega), .inl rfl⟩
    | succ n =>
      simp only [trimUnsigned]
      split
      next h =>
        obtain ⟨h1, h2, h3, h4⟩ := ih (by omega)
        refine ⟨h1, by omega, fun k hk hk' => ?_, h4⟩
        obtain rfl | hk'' := Nat.eq_or_lt_of_le (Nat.lt_succ_iff.mp hk')
        · exact h
        · exact h3 k hk hk''
      next h => exact ⟨by omega, by omega, fun k h h' => absurd h' (by omega), .inr h⟩

/-- `trimSigned` stops at the least length, at least 1, above which every byte is sign extension. -/
theorem trimSigned_spec (v : Word) (s : Bool) (fill : Byte) (n : Nat) (hn : 1 ≤ n) :
    1 ≤ trimSigned v s fill n ∧ trimSigned v s fill n ≤ n ∧
      (∀ k, trimSigned v s fill n ≤ k → k < n → lane v k = fill ∧ (lane v (k - 1)).msb = s) ∧
      (trimSigned v s fill n = 1 ∨
        ¬ (lane v (trimSigned v s fill n - 1) = fill ∧
          (lane v (trimSigned v s fill n - 2)).msb = s)) := by
  induction n with
  | zero => omega
  | succ n ih =>
    cases n with
    | zero => exact ⟨Nat.le_refl 1, Nat.le_refl 1, fun k h h' => absurd h (by simp [trimSigned]; omega), .inl rfl⟩
    | succ n =>
      simp only [trimSigned]
      split
      next h =>
        obtain ⟨h1, h2, h3, h4⟩ := ih (by omega)
        refine ⟨h1, by omega, fun k hk hk' => ?_, h4⟩
        obtain rfl | hk'' := Nat.eq_or_lt_of_le (Nat.lt_succ_iff.mp hk')
        · exact h
        · exact h3 k hk hk''
      next h => exact ⟨by omega, by omega, fun k h h' => absurd h' (by omega), .inr h⟩

theorem minlen_bounds (kind : Signedness) (v : Word) : 1 ≤ minlen kind v ∧ minlen kind v ≤ 8 := by
  cases kind with
  | unsigned => exact ⟨(trimUnsigned_spec v 8 (by decide)).1, (trimUnsigned_spec v 8 (by decide)).2.1⟩
  | signed =>
    exact ⟨(trimSigned_spec v _ _ 8 (by decide)).1, (trimSigned_spec v _ _ 8 (by decide)).2.1⟩

@[simp] theorem encInt_length (b : Build) (kind : Signedness) (order : Endianness) (v : Word) :
    (encInt b kind order v).length = minlen kind v := by
  have := minlen_bounds kind v
  cases order <;> simp [encInt, retained, fromHost_little, fromHost_big, bufLanes] <;> omega

@[simp] theorem encFlt_length (b : Build) (order : Endianness) (v : Word) :
    (encFlt b order v).length = 8 := by
  cases order <;> simp [encFlt, fromHost_little, fromHost_big]

/-- The retained Little bytes are the low lanes of the value. -/
theorem encInt_little (b : Build) (kind : Signedness) (v : Word) :
    encInt b kind .little v = lanes v (minlen kind v) := by
  simp only [encInt, retained, fromHost_little]
  exact lanes_take v (minlen_bounds kind v).2

/-- The retained Big bytes are the same bytes in opposite order. -/
theorem encInt_big (b : Build) (kind : Signedness) (v : Word) :
    encInt b kind .big v = (lanes v (minlen kind v)).reverse := by
  have h := (minlen_bounds kind v).2
  simp only [encInt, retained, fromHost_big, bufLanes, List.drop_reverse, lanes_length]
  rw [Nat.sub_sub_self h, lanes_take v h]

end Sys2Proof.Machine
end

