-- ==== Sys2Proof/Laws/PerInstr.lean ====
section
/-! SUPPORT. Statements about every instruction as syntax, one lemma for each constructor. -/

namespace Sys2Proof.Laws.EncodedRow

/-- A command word that carries `i` matches `i`'s row of 30_encoding.md R66 under the row's mask, and its
`LEN` field is `i`'s. -/
def Statement (i : Instr) : Prop :=
  i.wellFormed = true → encode i &&& matchMask = matchWord i ∧ lenOf (encode i) = i.len

/-- Every row has a match with four zero bits at the bottom, so `LEN` is free there. -/
theorem of_row (row : Nat) (hrow : row < 16) (n : Nat) (hn : n < 16) :
    (BitVec.ofNat 8 (16 * row) ||| BitVec.ofNat 8 n) &&& matchMask = BitVec.ofNat 8 (16 * row) ∧
      lenOf (BitVec.ofNat 8 (16 * row) ||| BitVec.ofNat 8 n) = n := by
  have key : ∀ r m : Fin 16,
      (BitVec.ofNat 8 (16 * r) ||| BitVec.ofNat 8 m) &&& matchMask = BitVec.ofNat 8 (16 * r) ∧
        lenOf (BitVec.ofNat 8 (16 * r) ||| BitVec.ofNat 8 m) = m := by decide
  exact key ⟨row, hrow⟩ ⟨n, hn⟩

theorem decuBe (n : Nat) : Statement (.decuBe n) := fun h =>
  of_row 0 (by decide) n (of_decide_eq_true h)
theorem decuLe (n : Nat) : Statement (.decuLe n) := fun h =>
  of_row 1 (by decide) n (of_decide_eq_true h)
theorem decsBe (n : Nat) : Statement (.decsBe n) := fun h =>
  of_row 2 (by decide) n (of_decide_eq_true h)
theorem decsLe (n : Nat) : Statement (.decsLe n) := fun h =>
  of_row 3 (by decide) n (of_decide_eq_true h)
theorem decfBe (n : Nat) : Statement (.decfBe n) := fun h =>
  of_row 4 (by decide) n (of_decide_eq_true h)
theorem decfLe (n : Nat) : Statement (.decfLe n) := fun h =>
  of_row 5 (by decide) n (of_decide_eq_true h)
theorem tohostBe (n : Nat) : Statement (.tohostBe n) := fun h =>
  of_row 6 (by decide) n (of_decide_eq_true h)
theorem tohostLe (n : Nat) : Statement (.tohostLe n) := fun h =>
  of_row 7 (by decide) n (of_decide_eq_true h)
theorem encuBe (n : Nat) : Statement (.encuBe n) := fun h =>
  of_row 8 (by decide) n (of_decide_eq_true h)
theorem encuLe (n : Nat) : Statement (.encuLe n) := fun h =>
  of_row 9 (by decide) n (of_decide_eq_true h)
theorem encsBe (n : Nat) : Statement (.encsBe n) := fun h =>
  of_row 10 (by decide) n (of_decide_eq_true h)
theorem encsLe (n : Nat) : Statement (.encsLe n) := fun h =>
  of_row 11 (by decide) n (of_decide_eq_true h)
theorem encfBe (n : Nat) : Statement (.encfBe n) := fun h =>
  of_row 12 (by decide) n (of_decide_eq_true h)
theorem encfLe (n : Nat) : Statement (.encfLe n) := fun h =>
  of_row 13 (by decide) n (of_decide_eq_true h)
theorem fromhostBe (n : Nat) : Statement (.fromhostBe n) := fun h =>
  of_row 14 (by decide) n (of_decide_eq_true h)
theorem fromhostLe (n : Nat) : Statement (.fromhostLe n) := fun h =>
  of_row 15 (by decide) n (of_decide_eq_true h)

end Sys2Proof.Laws.EncodedRow
end

