-- ==== Sys2Proof/Laws/State.lean ====
section
/-! SUPPORT. What each operation on the ports does to each of them. -/

namespace Sys2Proof.Machine

variable (s : State) (cmd : Byte) (din : Word) (o : Outputs) (nbits w : Nat)

/-! What the outputs hold between a drive and the step is the model's choice (log entry 12). -/

@[simp] theorem State.drive_driven : (s.drive cmd din).driven = true := rfl
@[simp] theorem State.drive_cmd : (s.drive cmd din).cmd = cmd := rfl
@[simp] theorem State.drive_din : (s.drive cmd din).din = din := rfl
@[simp] theorem State.drive_outputs : (s.drive cmd din).outputs = s.outputs := rfl

/-! What the ports hold after a release is the model's choice, not a rule of the spec (log entry 13). -/

@[simp] theorem State.release_driven : s.release.driven = false := rfl
@[simp] theorem State.release_cmd : s.release.cmd = s.cmd := rfl
@[simp] theorem State.release_din : s.release.din = s.din := rfl
@[simp] theorem State.release_outputs : s.release.outputs = s.outputs := rfl

@[simp] theorem State.settle_driven : (s.settle o).driven = s.driven := rfl
@[simp] theorem State.settle_cmd : (s.settle o).cmd = s.cmd := rfl
@[simp] theorem State.settle_din : (s.settle o).din = s.din := rfl
@[simp] theorem State.settle_dout : (s.settle o).dout = o.dout := rfl
@[simp] theorem State.settle_lout : (s.settle o).lout = o.lout := rfl
@[simp] theorem State.settle_status : (s.settle o).status = o.status := rfl
@[simp] theorem State.settle_outputs : (s.settle o).outputs = o := rfl

@[simp] theorem State.settle_settle (o' : Outputs) : (s.settle o).settle o' = s.settle o' := rfl

/-- Driving new inputs forgets the old ones; the old outputs stay until the unit settles. -/
@[simp] theorem State.drive_settle :
    (s.settle o).drive cmd din = (s.drive cmd din).settle o := rfl

@[simp] theorem State.withFetchWord_driven : (s.withFetchWord nbits w).driven = true := rfl
@[simp] theorem State.withFetchWord_cmd :
    (s.withFetchWord nbits w).cmd = BitVec.ofNat 8 (w % 2 ^ nbits) := rfl
@[simp] theorem State.withFetchWord_din : (s.withFetchWord nbits w).din = s.din := rfl
@[simp] theorem State.withFetchWord_outputs : (s.withFetchWord nbits w).outputs = s.outputs := rfl

@[simp] theorem fetch_of_driven (h : s.driven = true) : fetch s = some s.cmd := by simp [fetch, h]
@[simp] theorem fetch_of_not_driven (h : s.driven = false) : fetch s = none := by simp [fetch, h]

end Sys2Proof.Machine
end

