-- ==== Sys2Proof/Laws/Step.lean ====
section
/-! SUPPORT. What a transaction can do: `exec` completes with the operation's outcome, and `step` is a
transaction or no transaction at all. -/

namespace Sys2Proof.Machine

@[simp] theorem portsOf_ok (dout : Word) (lout : Nat) :
    portsOf (.ok dout lout) = ⟨dout, BitVec.ofNat 4 lout, 0b00#2⟩ := rfl

@[simp] theorem portsOf_invalidLength : portsOf .invalidLength = ⟨0#64, 0#4, 0b01#2⟩ := rfl

theorem complete_ok (s : State) (dout : Word) (lout : Nat) :
    complete s (.ok dout lout) =
      .next { s with dout := dout, lout := BitVec.ofNat 4 lout, status := 0b00#2 } := rfl

theorem complete_invalidLength (s : State) :
    complete s .invalidLength =
      .next { s with dout := 0#64, lout := 0#4, status := 0b01#2 } := rfl

/-- Every operation completes, and `exec` is the unit's function in the machine's build. -/
theorem exec_eq_complete (i : Instr) (s : State) : exec i s = complete s (convert build i s.din) := by
  cases i <;> rfl

/-- All that a step can do: run the transaction on the ports, or refuse where there is none. -/
theorem step_cases (s : State) :
    (s.driven = true ∧ step s = .next (s.settle (ncu build s.cmd s.din))) ∨
      (s.driven = false ∧ step s = .refused .inputsNotDriven) := by
  cases h : s.driven with
  | true => exact .inl ⟨rfl, by simp [step, h, exec_eq_complete, complete, ncu]⟩
  | false => exact .inr ⟨rfl, by simp [step, h]⟩

/-- A step that answers a next state ran the transaction on the ports. -/
theorem step_next {s s' : State} (h : step s = .next s') :
    s.driven = true ∧ s' = s.settle (ncu build s.cmd s.din) := by
  obtain ⟨hd, he⟩ | ⟨_, he⟩ := step_cases s
  · exact ⟨hd, (Host.Outcome.next.inj (he.symm.trans h)).symm⟩
  · rw [he] at h; cases h

/-- The outcome of an integer decode: the error exactly on a forbidden length. -/
theorem decodeInteger_eq (b : Build) (kind : Signedness) (order : Endianness) (L : Nat) (din : Word) :
    decodeInteger b kind order L din =
      if L < 1 ∨ L > 8 then .invalidLength else .ok (decInt b kind order (lanes din L)) 8 := by
  by_cases h : L < 1 ∨ L > 8 <;> simp only [decodeInteger, intLengthOk, h] <;> rfl

/-- The outcome of a float decode: the error exactly on a forbidden length. -/
theorem decodeFloat_eq (b : Build) (order : Endianness) (L : Nat) (din : Word) :
    decodeFloat b order L din =
      if L = 8 then .ok (fltPattern8 b order (lanes din 8)) 8
      else if L = 4 then .ok (widen b (fltPattern4 b order (lanes din 4))) 8 else .invalidLength := by
  by_cases h8 : L = 8
  · simp [decodeFloat, floatLengthOk, h8]
  · by_cases h4 : L = 4 <;> simp [decodeFloat, floatLengthOk, h8, h4]

end Sys2Proof.Machine
end

