-- ==== Sys2Proof/Tests/Slice0.lean ====
section
/-! SUPPORT. The model's own tests.  Every expected word and value is the spec's: the bit patterns of
30_encoding.md R66 and the examples T1 to T11 and vectors V1 to V201 of 95_test_vectors.md, named with each.
The last part shows, for each statement with hypotheses, data that meets them. -/

open Sys2Proof Sys2Proof.Machine

namespace Sys2Proof.Tests

/-! ### WellFormed: `LEN` is 0 to 15 -/

theorem test_wellFormed_refuses_len_16 : (Instr.decuBe 16).wellFormed = false := by decide
theorem test_wellFormed_refuses_long_unread_len : (Instr.fromhostLe 300).wellFormed = false := by decide
theorem test_wellFormed_takes_len_15 : (Instr.encsLe 15).wellFormed = true := by decide

/-! ### Decoding: the pattern of each row of R66, bit by bit, with a `LEN` -/

theorem test_decode_decuBe : decode 0b00000010#8 = .decuBe 2 := by decide
theorem test_decode_decuLe : decode 0b00011000#8 = .decuLe 8 := by decide
theorem test_decode_decsBe : decode 0b00100001#8 = .decsBe 1 := by decide
theorem test_decode_decsLe : decode 0b00110010#8 = .decsLe 2 := by decide
theorem test_decode_decfBe : decode 0b01000100#8 = .decfBe 4 := by decide
theorem test_decode_decfLe : decode 0b01011000#8 = .decfLe 8 := by decide
theorem test_decode_tohostBe : decode 0b01101111#8 = .tohostBe 15 := by decide
theorem test_decode_tohostLe : decode 0b01111001#8 = .tohostLe 9 := by decide
theorem test_decode_encuBe : decode 0b10001011#8 = .encuBe 11 := by decide
theorem test_decode_encuLe : decode 0b10010000#8 = .encuLe 0 := by decide
theorem test_decode_encsBe : decode 0b10100101#8 = .encsBe 5 := by decide
theorem test_decode_encsLe : decode 0b10110000#8 = .encsLe 0 := by decide
theorem test_decode_encfBe : decode 0b11000100#8 = .encfBe 4 := by decide
theorem test_decode_encfLe : decode 0b11010000#8 = .encfLe 0 := by decide
theorem test_decode_fromhostBe : decode 0b11101111#8 = .fromhostBe 15 := by decide
theorem test_decode_fromhostLe : decode 0b11111000#8 = .fromhostLe 8 := by decide

theorem test_encode_decsLe : encode (.decsLe 2) = 0x32#8 := by decide
theorem test_decodeTableWord : decodeTableWord 8 0xA0 = some (.encsBe 0) := by decide
theorem test_decodeTableWord_refuses_16_bits : decodeTableWord 16 0xA0 = none := by decide

/-! ### One transaction each -/

/-- The ports after the step that follows driving `cmd` and `din` on the reset state. -/
def answer (cmd : Byte) (din : Word) : Option Outputs :=
  match step (State.reset.drive cmd din) with
  | .next s => some s.outputs
  | .fault _ => none
  | .refused _ => none

/-- V1. -/
theorem test_tohostBe : answer 0x60 0x0807060504030201 = some ⟨0x0102030405060708, 8, 0b00⟩ := by
  decide
/-- V10: `LEN = 9` ignored. -/
theorem test_tohostLe_len_9 :
    answer 0x79 0x0102030405060708 = some ⟨0x0102030405060708, 8, 0b00⟩ := by decide
/-- V12: no trimming. -/
theorem test_fromhostBe : answer 0xE0 0x00000000DEADBEEF = some ⟨0xEFBEADDE00000000, 8, 0b00⟩ := by
  decide
/-- V16. -/
theorem test_fromhostLe : answer 0xF0 0x00000000DEADBEEF = some ⟨0x00000000DEADBEEF, 8, 0b00⟩ := by
  decide
/-- V32: lanes 2 to 7 ignored. -/
theorem test_decuBe_ignores_high_lanes : answer 0x02 0xFFEEDDCCBBAA2C01 = some ⟨300, 8, 0b00⟩ := by
  decide
/-- T7, V181. -/
theorem test_decuBe_len_9 : answer 0x09 0x0807060504030201 = some ⟨0, 0, 0b01⟩ := by decide
/-- V41. -/
theorem test_decuLe : answer 0x12 0xFFEEDDCCBBAA012C = some ⟨300, 8, 0b00⟩ := by decide
/-- V185: a payload of no bytes. -/
theorem test_decuLe_len_0 : answer 0x10 0x012C = some ⟨0, 0, 0b01⟩ := by decide
/-- V59: the sign is that of `p[0]`. -/
theorem test_decsBe : answer 0x22 0x1122334455667FFF = some ⟨0xFFFFFFFFFFFFFF7F, 8, 0b00⟩ := by decide
/-- V56: no extension at `L = 8`. -/
theorem test_decsBe_len_8 : answer 0x28 0x80 = some ⟨0x8000000000000000, 8, 0b00⟩ := by decide
/-- V62: the guard byte is last. -/
theorem test_decsLe_positive : answer 0x32 0x0080 = some ⟨0x80, 8, 0b00⟩ := by decide
/-- V69. -/
theorem test_decsLe_negative :
    answer 0x32 0x11EEDDCCBBAAFF7F = some ⟨0xFFFFFFFFFFFFFF7F, 8, 0b00⟩ := by decide
/-- V151: a negative subnormal. -/
theorem test_decfBe_subnormal : answer 0x44 0x45230180 = some ⟨0xB7A2345000000000, 8, 0b00⟩ := by decide
/-- T8, V190. -/
theorem test_decfBe_len_3 : answer 0x43 0xC03F = some ⟨0, 0, 0b01⟩ := by decide
/-- V140: a normalized single. -/
theorem test_decfLe_normalized : answer 0x54 0x40490FD0 = some ⟨0x400921FA00000000, 8, 0b00⟩ := by decide
/-- V178: a signalling NaN is not touched at `L = 8`. -/
theorem test_decfLe_nan_len_8 : answer 0x58 0xFFF0000000000001 = some ⟨0xFFF0000000000001, 8, 0b00⟩ := by
  decide
/-- T1: zero takes one byte. -/
theorem test_encuBe_zero : answer 0x80 0 = some ⟨0, 1, 0b00⟩ := by decide
/-- V78: interior zero bytes are kept. -/
theorem test_encuBe_interior_zeros : answer 0x80 0x010000 = some ⟨0x01, 3, 0b00⟩ := by decide
/-- V94. -/
theorem test_encuLe : answer 0x90 0x010000 = some ⟨0x010000, 3, 0b00⟩ := by decide
/-- T4: the sign guard. -/
theorem test_encsBe_guard : answer 0xA0 128 = some ⟨0x8000, 2, 0b00⟩ := by decide
/-- V120: `-2^55 - 1` takes all 8 bytes. -/
theorem test_encsBe_eight_bytes :
    answer 0xA0 0xFF7FFFFFFFFFFFFF = some ⟨0xFFFFFFFFFFFF7FFF, 8, 0b00⟩ := by decide
/-- V124: dropped lanes come out zero. -/
theorem test_encsLe_minus_one : answer 0xB0 0xFFFFFFFFFFFFFFFF = some ⟨0xFF, 1, 0b00⟩ := by decide
/-- V127: the guard byte on the negative side. -/
theorem test_encsLe_guard : answer 0xB0 0xFFFFFFFFFFFFFF7F = some ⟨0xFF7F, 2, 0b00⟩ := by decide
/-- V173: `LEN = 4` ignored, still 8 bytes. -/
theorem test_encfBe : answer 0xC4 0x3FF8000000000000 = some ⟨0xF83F, 8, 0b00⟩ := by decide
/-- V172. -/
theorem test_encfLe : answer 0xD0 0xFFF0000000000001 = some ⟨0xFFF0000000000001, 8, 0b00⟩ := by decide

/-- V158, of the build with the spec's default `NAN_WIDEN`. -/
theorem test_nanWidenDefault :
    ncu defaultBuild 0x44 0x4523C1FF = ⟨0xFFF82468A0000000, 8, 0b00⟩ := by decide

/-- R191: no transaction while the inputs are not driven. -/
theorem test_reset_not_driven : step State.reset = .refused .inputsNotDriven := rfl

/-- P4 step 1, as a source call. -/
theorem test_bswap64 : transact defaultBuild (SourceCall.bswap64 0x1122334455667788).expand =
    some (.value 0x8877665544332211) := by decide

/-- P5: errors leave nothing behind. -/
theorem test_session_after_errors :
    session State.reset [(0x09, 0x0807060504030201), (0x43, 0xC03F), (0x02, 0x2C01)] =
      some [⟨0, 0, 0b01⟩, ⟨0, 0, 0b01⟩, ⟨300, 8, 0b00⟩] := by decide

/-- V138: the number the pattern stands for, by R142's formula. -/
theorem test_singleValue : singleValue 0xC2ED4000#32 = some (-118.625) := by
  have hs : singleSign 0xC2ED4000#32 = 1#1 := by decide
  have he : singleExponent 0xC2ED4000#32 = 133#8 := by decide
  have hm : singleMantissa 0xC2ED4000#32 = 0x6D4000#23 := by decide
  simp only [singleValue, hs, he, hm, signFactor]
  rw [if_neg (by decide), if_neg (by decide)]
  norm_num

/-! ### The hypotheses of the statements are met -/

/-- One driven state, and the state after its step. -/
def driven : State := State.reset.drive 0x09 0x0807060504030201
def stepped : State := driven.settle ⟨0, 0, 0b01⟩

theorem witness_step : step driven = .next stepped := rfl
theorem witness_step_failed : stepped.status = 0b01 := by decide
theorem witness_exec : exec (.encuBe 0) driven = .next (driven.settle ⟨0x0102030405060708, 8, 0b00⟩) := rfl

theorem witness_DecodeReadsEncodedInstruction :
    (Instr.decuBe 0).wellFormed = true ∧ (Instr.fromhostLe 15).wellFormed = true := by decide
theorem witness_StepRunsDecodedInstruction : driven.driven = true ∧ State.reset.driven = false := by decide
theorem witness_NormalizerClosedFormAndInverse : (lanes 0x0807060504030201 8).length = 8 := by decide
theorem witness_HostOrderUnobservable : (List.replicate 8 (0xFF : Byte)).length = 8 := by decide
/-- Of every statement about a payload of 1 to 8 bytes: both ends of the range, and both lengths of R140. -/
theorem witness_payload_lengths :
    (1 ≤ ([0x80] : Bytes).length ∧ ([0x80] : Bytes).length ≤ 8) ∧
      (1 ≤ (lanes 0x80 8).length ∧ (lanes 0x80 8).length ≤ 8) ∧ (lanes 0x80 4).length = 4 := by decide
/-- Of R103 to R106 and R147, R148: each clause of the length check at its ends. -/
theorem witness_length_clauses :
    (0 < 1 ∨ 0 > 8) ∧ ¬ (1 < 1 ∨ 1 > 8) ∧ ¬ (8 < 1 ∨ 8 > 8) ∧ (9 < 1 ∨ 9 > 8) ∧
      ¬ (4 ≠ 4 ∧ 4 ≠ 8) ∧ ¬ (8 ≠ 4 ∧ 8 ≠ 8) ∧ (3 ≠ 4 ∧ 3 ≠ 8) := by decide
theorem witness_IntegerDecodeLaws_extension :
    63 < 64 ∧ 8 * ([0x80] : Bytes).length ≤ 63 ∧ 8 * ([0x80] : Bytes).length ≤ 8 := by decide
theorem witness_NonMinimalPayloadDecodesAlike :
    1 ≤ ([0x80] : Bytes).length ∧ ([0x80] : Bytes).length + 7 ≤ 8 := by decide
theorem witness_DecodeIgnoresLanesAboveLength :
    (0x02 : Byte).toNat < 0x60 ∧ (0x5F : Byte).toNat < 0x60 ∧
      (∀ i < (0x02 : Byte).toNat % 16, lane 0xFFEEDDCCBBAA2C01 i = lane 0x2C01 i) ∧
      (0xFFEEDDCCBBAA2C01 : Word) ≠ 0x2C01 := by decide
theorem witness_ShorterDecodeSeesLowOrHighBytes : 1 ≤ 1 ∧ 1 < 8 ∧ 8 ≤ 8 ∧ 7 < 8 := by decide
theorem witness_UnsignedMinimalLength :
    (0xFF : Word).toNat < 2 ^ (8 * 1) ∧ ¬ (0x100 : Word).toNat < 2 ^ (8 * 1) := by decide
theorem witness_SignedMinimalLength :
    -(2 ^ (8 * 1 - 1)) ≤ (0xFFFFFFFFFFFFFF80 : Word).toInt ∧
      (0xFFFFFFFFFFFFFF80 : Word).toInt ≤ 2 ^ (8 * 1 - 1) - 1 := by decide
theorem witness_RetainedBytesBySignificance : (1 ≤ 1 ∧ 1 ≤ 8) ∧ (1 ≤ 8 ∧ 8 ≤ 8) := by decide
theorem witness_EncodeLengthIsMinimal :
    1 ≤ ([0x80] : Bytes).length ∧
      ([0x80] : Bytes).length < (encInt defaultBuild .signed .big 128).length := by decide
theorem witness_SignedLengthAgainstUnsigned :
    (0x80 : Word).msb = false ∧ (lane 0x80 (minlenU 0x80 - 1)).msb = true ∧ minlenU 0x80 < 8 ∧
      (0x8000000000000000 : Word).msb = true := by decide
theorem witness_WidenNormalizedSingle :
    (1 ≤ (1#8).toNat ∧ (1#8).toNat ≤ 254) ∧ (1 ≤ (254#8).toNat ∧ (254#8).toNat ≤ 254) := by decide
theorem witness_WidenZeroSubnormalInfinity :
    (2 ^ 0 ≤ (1#23).toNat ∧ (1#23).toNat < 2 ^ 1) ∧
      (2 ^ 22 ≤ (0x7FFFFF#23).toNat ∧ (0x7FFFFF#23).toNat < 2 ^ 23) := by decide
theorem witness_NanWidensToNan : isSingleNaN 0x7F800001 = true ∧ isSingleNaN 0xFFFFFFFF = true := by decide
theorem witness_WidenPreservesValue :
    Admissible ⟨.big, fun _ => 0x7FF8000000000000⟩ ∧ isSingleNaN 0x3F800000 = false ∧
      (isSingleNaN 0xFF800000 = false ∧ singleExponent 0xFF800000 = 255#8 ∧
        singleMantissa 0xFF800000 = 0#23) :=
  ⟨fun _ _ => (by decide : isDoubleNaN 0x7FF8000000000000 = true), by decide, by decide⟩
theorem witness_OutputsAreLegal :
    (ncu defaultBuild 0x54 0x3FC00000).status = 0b00 ∧
      ¬ (8 ≤ (0x54 : Byte).toNat / 16 ∧ (0x54 : Byte).toNat / 16 < 12) := by decide
/-- Two states with equal inputs and other outputs, each of which steps. -/
theorem witness_OutputsDependOnInputsAlone :
    step driven = .next stepped ∧ step stepped = .next stepped ∧ driven.cmd = stepped.cmd ∧
      driven.din = stepped.din := ⟨rfl, rfl, rfl, rfl⟩
theorem witness_NormalizerCalls : ([0x01] : Bytes).length ≠ 8 := by decide

end Sys2Proof.Tests
end

section
/-! PROOFS. What stands on the ports (10_state.md): the outputs are legal and are `NCU` of the inputs (R25,
R28, R29), every transaction completes and leaves the inputs alone (R24, R30), and a decode reads no lane
at or above `LEN` (R26). -/

namespace Sys2Proof.Machine

/-! ### The fields of a decoded word -/

/-- The decoded row is the one the high four bits name (30_encoding.md R66). -/
theorem matchWord_decode_toNat (cmd : Byte) :
    (matchWord (decode cmd)).toNat = 16 * (cmd.toNat / 16) := by
  revert cmd
  decide

/-- The decoded instruction's `LEN` is the low four bits (30_encoding.md R64). -/
theorem decode_len (cmd : Byte) : (decode cmd).len = cmd.toNat % 16 := by
  revert cmd
  decide

/-! ### Lengths of outcomes -/

/-- The outcome is the error or 8 bytes of data: what every operation but an integer encode gives
(10_state.md R28). -/
def Conversion.IsErrorOrFull (c : Conversion) : Prop := c = .invalidLength ∨ ∃ d, c = .ok d 8

theorem decodeInteger_isErrorOrFull (b : Build) (kind : Signedness) (order : Endianness) (L : Nat)
    (din : Word) : (decodeInteger b kind order L din).IsErrorOrFull := by
  rw [decodeInteger_eq]
  split
  · exact .inl rfl
  · exact .inr ⟨_, rfl⟩

theorem decodeFloat_isErrorOrFull (b : Build) (order : Endianness) (L : Nat) (din : Word) :
    (decodeFloat b order L din).IsErrorOrFull := by
  rw [decodeFloat_eq]
  split
  · exact .inr ⟨_, rfl⟩
  · split
    · exact .inr ⟨_, rfl⟩
    · exact .inl rfl

/-- Every operation gives the error or 8 bytes, or is an integer encode, whose rows of R66 are 8 to 11. -/
theorem convert_cases (b : Build) (i : Instr) (din : Word) :
    (convert b i din).IsErrorOrFull ∨
      (128 ≤ (matchWord i).toNat ∧ (matchWord i).toNat < 192 ∧
        ∃ kind order, convert b i din = encodeInteger b kind order din) := by
  cases i with
  | decuBe L | decuLe L | decsBe L | decsLe L => exact .inl (decodeInteger_isErrorOrFull b _ _ L din)
  | decfBe L | decfLe L => exact .inl (decodeFloat_isErrorOrFull b _ L din)
  | tohostBe _ | tohostLe _ | encfBe _ | encfLe _ | fromhostBe _ | fromhostLe _ =>
    exact .inl (.inr ⟨_, rfl⟩)
  | encuBe _ | encuLe _ | encsBe _ | encsLe _ =>
    exact .inr ⟨by simp [matchWord], by simp [matchWord], _, _, rfl⟩

/-! ### Legal outputs -/

theorem portsOf_ok_legal (d : Word) {n : Nat} (h1 : 1 ≤ n) (h8 : n ≤ 8) :
    (portsOf (.ok d n)).Legal := by
  have hn : (BitVec.ofNat 4 n).toNat = n := Nat.mod_eq_of_lt (by omega)
  refine .inl ⟨rfl, ?_⟩
  simp [hn, h1, h8]

theorem portsOf_invalidLength_legal : (portsOf .invalidLength).Legal := .inr ⟨rfl, rfl, rfl⟩

theorem ncu_legal (b : Build) (cmd : Byte) (din : Word) : (ncu b cmd din).Legal := by
  unfold ncu
  obtain (he | ⟨d, hd⟩) | ⟨-, -, kind, order, hk⟩ := convert_cases b (decode cmd) din
  · rw [he]; exact portsOf_invalidLength_legal
  · rw [hd]; exact portsOf_ok_legal d (by decide) (by decide)
  · obtain ⟨h1, h8⟩ := minlen_bounds kind din
    rw [hk]; exact portsOf_ok_legal _ h1 h8

/-- On `OK`, an operation that is no integer encode answers 8 bytes (10_state.md R28). -/
theorem ncu_lout_eq_eight {b : Build} {cmd : Byte} {din : Word} (hok : (ncu b cmd din).status = 0b00#2)
    (hrow : ¬ (8 ≤ cmd.toNat / 16 ∧ cmd.toNat / 16 < 12)) : (ncu b cmd din).lout = 8#4 := by
  unfold ncu at hok ⊢
  obtain (he | ⟨d, hd⟩) | ⟨hlo, hhi, -⟩ := convert_cases b (decode cmd) din
  · simp [he] at hok
  · simp [hd]
  · rw [matchWord_decode_toNat] at hlo hhi
    omega

/-- Outputs that answer the inputs are legal: one half of the port invariant follows from the other. -/
theorem State.Settled.legal {s : State} (h : s.Settled) : s.outputs.Legal :=
  h ▸ ncu_legal build s.cmd s.din

/-! ### Transactions -/

theorem step_of_driven {s : State} (h : s.driven = true) : step s = exec (decode s.cmd) s := by
  simp [step, h]

theorem step_of_not_driven {s : State} (h : s.driven = false) :
    step s = .refused .inputsNotDriven := by
  simp [step, h]

theorem exec_eq_next (i : Instr) (s : State) :
    exec i s = .next (s.settle (portsOf (convert build i s.din))) := exec_eq_complete i s

/-- Driven inputs are answered from every state (10_state.md R30). -/
theorem step_drive (s : State) (cmd : Byte) (din : Word) :
    step (s.drive cmd din) = .next ((s.drive cmd din).settle (ncu build cmd din)) := by
  rw [step_of_driven (s.drive_driven cmd din), exec_eq_next, State.drive_cmd, State.drive_din, ncu]

/-- The outputs after a step are `NCU` of the inputs before it (10_state.md R25). -/
theorem step_next_outputs {s s' : State} (h : step s = .next s') :
    s'.outputs = ncu build s.cmd s.din := by
  obtain ⟨-, rfl⟩ := step_next h
  rfl

/-! ### The lanes a decode reads -/

theorem lanes_congr {d d' : Word} {n : Nat} (h : ∀ i < n, lane d i = lane d' i) :
    lanes d n = lanes d' n :=
  List.map_congr_left fun i hi => h i (List.mem_range.mp hi)

theorem decodeInteger_congr {b : Build} {kind : Signedness} {order : Endianness} {L : Nat}
    {d d' : Word} (h : ∀ i < L, lane d i = lane d' i) :
    decodeInteger b kind order L d = decodeInteger b kind order L d' := by
  unfold decodeInteger
  rw [lanes_congr h]

/-- A float decode reads all the lanes of its two permitted lengths, and none on another length. -/
theorem decodeFloat_congr {b : Build} {order : Endianness} {L : Nat} {d d' : Word}
    (h : ∀ i < L, lane d i = lane d' i) : decodeFloat b order L d = decodeFloat b order L d' := by
  rw [decodeFloat_eq, decodeFloat_eq]
  split
  next h8 => rw [lanes_congr (h8 ▸ h)]
  next =>
    split
    next h4 => rw [lanes_congr (h4 ▸ h)]
    next => rfl

/-- The six decodes, rows 0 to 5 of R66, read no lane at or above their `LEN` (10_state.md R26). -/
theorem convert_congr_of_decode (b : Build) {i : Instr} {d d' : Word}
    (hrow : (matchWord i).toNat < 96) (h : ∀ k < i.len, lane d k = lane d' k) :
    convert b i d = convert b i d' := by
  cases i with
  | decuBe L | decuLe L | decsBe L | decsLe L => exact decodeInteger_congr h
  | decfBe L | decfLe L => exact decodeFloat_congr h
  | tohostBe _ | tohostLe _ | encuBe _ | encuLe _ | encsBe _ | encsLe _ | encfBe _ | encfLe _
  | fromhostBe _ | fromhostLe _ => simp [matchWord] at hrow

/-! ### The obligations -/

/-- Settles O48: a step settles the ports on `NCU` of the driven inputs, and settled ports are legal. -/
theorem stepKeepsPortsLegalAndSettled : Obligations.StepKeepsPortsLegalAndSettled := by
  intro s s' h
  obtain ⟨hd, rfl⟩ := step_next h
  have hs : (s.settle (ncu build s.cmd s.din)).Settled := rfl
  exact ⟨hs.legal, hs, hd⟩

/-- Settles O30, through the row and the `LEN` of the decoded word. -/
theorem decodeIgnoresLanesAboveLength : Obligations.DecodeIgnoresLanesAboveLength := by
  intro b cmd din din' hcmd h
  have hrow : (matchWord (decode cmd)).toNat < 96 := by
    rw [matchWord_decode_toNat]
    omega
  rw [← decode_len] at h
  exact congrArg portsOf (convert_congr_of_decode b hrow h)

/-- Settles O47, by the lengths each operation's outcome can have. -/
theorem outputsAreLegal : Obligations.OutputsAreLegal :=
  fun b cmd din => ⟨ncu_legal b cmd din, ncu_lout_eq_eight⟩

/-- Settles O50: every operation's next state is the old one with its outputs settled. -/
theorem execLeavesInputsUnchanged : Obligations.ExecLeavesInputsUnchanged := by
  intro i s s' h
  rw [exec_eq_next] at h
  obtain rfl := Host.Outcome.next.inj h
  exact ⟨State.settle_driven .., State.settle_cmd .., State.settle_din ..⟩

/-- Settles O51: `exec` always completes, and driven inputs make the step run it. -/
theorem everyTransactionCompletes : Obligations.EveryTransactionCompletes :=
  ⟨exec_eq_next, fun s cmd din => ⟨_, step_drive s cmd din, State.settle_outputs ..⟩⟩

/-- Settles O52: both outputs are `NCU` of the same inputs. -/
theorem outputsDependOnInputsAlone : Obligations.OutputsDependOnInputsAlone := by
  intro s t s' t' hcmd hdin hs ht
  rw [step_next_outputs hs, step_next_outputs ht, hcmd, hdin]

/-- Settles O5, by the two cases of the fetch. -/
theorem stepRunsDecodedInstruction : Obligations.StepRunsDecodedInstruction :=
  fun _ => ⟨step_of_driven, step_of_not_driven⟩

/-- Settles O49: the reset word is `DECU.BE` with `LEN` 0, a forbidden length, and the reset outputs are
that error's. -/
theorem resetPortsLegalAndSettled : Obligations.ResetPortsLegalAndSettled := by
  have hdec : decode 0x00#8 = .decuBe 0 := by decide
  have hncu : ncu build 0x00#8 0#64 = ⟨0#64, 0#4, 0b01#2⟩ := by
    simp [ncu, hdec, convert, decuBe, decodeInteger_eq]
  have hs : State.reset.Settled := hncu.symm
  exact ⟨hs.legal, hs, rfl⟩

end Sys2Proof.Machine
end

section
/-! PROOFS. What the unit has in place of a memory (20_memory.md): where a payload stands in the working
buffer (R45), what a repeated transaction and a sequence of transactions answer (R48, R51), what a decode
of a shorter payload sees (R49), and that Big output is Little output reversed (R54). -/

namespace Sys2Proof.Machine

/-! ### Transactions -/

/-- A driven step answers the ports settled on `NCU` of the inputs (10_state.md R25). -/
theorem step_eq_settle {s : State} (h : s.driven = true) :
    step s = .next (s.settle (ncu build s.cmd s.din)) := by
  rw [step_of_driven h, exec_eq_next, ncu]

theorem session_nil (s : State) : session s [] = some [] := rfl

/-- A session samples `NCU` of its first transaction, and goes on from the state that leaves. -/
theorem session_cons (s : State) (t : Byte × Word) (ts : List (Byte × Word)) :
    session s (t :: ts) =
      (session ((s.drive t.1 t.2).settle (ncu build t.1 t.2)) ts).map (ncu build t.1 t.2 :: ·) := by
  simp only [session, step_drive, State.settle_outputs]

/-! ### The working buffer -/

section Placement

variable {fill : Byte} {p : Bytes}

theorem placed_little_payload {j : Nat} (h : j < p.length) : (placed .little fill p)[j]? = p[j]? :=
  List.getElem?_append_left h

theorem placed_little_fill {i : Nat} (h : p.length ≤ i) (h8 : i < 8) :
    (placed .little fill p)[i]? = some fill := by
  rw [placed, List.getElem?_append_right h,
    List.getElem?_replicate_of_lt (Nat.sub_lt_sub_right h h8)]

theorem placed_big_payload (j : Nat) : (placed .big fill p)[8 - p.length + j]? = p[j]? := by
  simp [placed, bufLanes, List.getElem?_append_right]

theorem placed_big_fill {i : Nat} (h : i < 8 - p.length) : (placed .big fill p)[i]? = some fill := by
  rw [placed, List.getElem?_append_left (by simpa using h), List.getElem?_replicate_of_lt h]

end Placement

/-! ### Unsigned decode -/

theorem wireVal_lt (order : Endianness) (p : Bytes) : wireVal order p < 2 ^ (8 * p.length) := by
  cases order with
  | big => exact beVal_lt p
  | little => exact leVal_lt p

/-- The zero extension of a payload has the payload's own value (41_integer_decode.md R102). -/
theorem decInt_unsigned_toNat (b : Build) (order : Endianness) {p : Bytes} (h : p.length ≤ 8) :
    (decInt b .unsigned order p).toNat = wireVal order p := by
  have hlt : wireVal order p < 2 ^ 64 :=
    (wireVal_lt order p).trans_le (Nat.pow_le_pow_right (by decide) (by omega))
  cases order with
  | big => simpa [decInt, extFill, wireVal, toHost_big, beVal_placed_big] using hlt
  | little => simpa [decInt, extFill, wireVal, toHost_little, leVal_placed_little] using hlt

theorem beVal_append (p q : Bytes) : beVal (p ++ q) = beVal q + 2 ^ (8 * q.length) * beVal p := by
  simp [beVal_eq_leVal_reverse, leVal_append]

/-- The first bytes of a Big payload are its high-order ones. -/
theorem beVal_take (p : Bytes) (n : Nat) :
    beVal (p.take n) = beVal p / 2 ^ (8 * (p.length - n)) := by
  have hlt := beVal_lt (p.drop n)
  rw [List.length_drop] at hlt
  have hsplit := beVal_append (p.take n) (p.drop n)
  rw [List.take_append_drop, List.length_drop] at hsplit
  rw [hsplit, Nat.add_mul_div_left _ _ (Nat.two_pow_pos _), Nat.div_eq_of_lt hlt, Nat.zero_add]

/-! ### Host-to-wire outputs in the two orders -/

/-- One answer holds as many bytes as another, in the opposite sequence (R54). -/
def Outputs.Reverses (big little : Outputs) : Prop :=
  big.lout = little.lout ∧
    lanes big.dout big.lout.toNat = (lanes little.dout little.lout.toNat).reverse

/-- The bytes read from the ports are the bytes packed there. -/
theorem lanes_portsOf_pack {p : Bytes} (h : p.length ≤ 8) :
    lanes (portsOf (.ok (pack p) p.length)).dout (portsOf (.ok (pack p) p.length)).lout.toNat = p := by
  have hn : (BitVec.ofNat 4 p.length).toNat = p.length := Nat.mod_eq_of_lt (by omega)
  rw [portsOf_ok, hn, lanes_pack h]

/-- Reversing the bytes of an answer gives its reverse. -/
theorem portsOf_pack_reverses {p : Bytes} (h : p.length ≤ 8) :
    (portsOf (.ok (pack p.reverse) p.length)).Reverses (portsOf (.ok (pack p) p.length)) := by
  refine ⟨rfl, ?_⟩
  have hr := lanes_portsOf_pack (p := p.reverse) (by simpa using h)
  rw [List.length_reverse] at hr
  rw [hr, lanes_portsOf_pack h]

theorem encodeInteger_reverses (b : Build) (kind : Signedness) (v : Word) :
    (portsOf (encodeInteger b kind .big v)).Reverses (portsOf (encodeInteger b kind .little v)) := by
  have h := portsOf_pack_reverses (p := lanes v (minlen kind v)) (by simpa using (minlen_bounds kind v).2)
  rwa [lanes_length, ← encInt_big b, ← encInt_little b] at h

theorem normalizeOut_reverses (b : Build) (v : Word) :
    (portsOf (normalizeOut b .big v)).Reverses (portsOf (normalizeOut b .little v)) := by
  have h := portsOf_pack_reverses (p := lanes v 8) (by simp)
  rwa [lanes_length, ← fromHost_big b.hostOrder, ← fromHost_little b.hostOrder] at h

/-- A float encode is the bare normalizer: it drops no byte and inspects none (43_float.md R141). -/
theorem encodeFloat_reverses (b : Build) (v : Word) :
    (portsOf (encodeFloat b .big v)).Reverses (portsOf (encodeFloat b .little v)) :=
  normalizeOut_reverses b v

/-- The high four bits of a command word select the row, the low four are its `LEN` (30_encoding.md R66). -/
theorem decode_append_len (row n : BitVec 4) :
    decode (row ++ n) =
      selectRow (directionOf (row ++ 0#4)) (kindOf (row ++ 0#4)) (orderOf (row ++ 0#4)) n.toNat := by
  revert row n
  decide

theorem ncu_append_len (b : Build) (row n : BitVec 4) (v : Word) :
    ncu b (row ++ n) v = portsOf (convert b (selectRow (directionOf (row ++ 0#4)) (kindOf (row ++ 0#4))
      (orderOf (row ++ 0#4)) n.toNat) v) := by
  rw [ncu, decode_append_len]

/-! ### The obligations -/

/-- Settles O26, one clause for the payload's bytes and one for the fill in each order. -/
theorem payloadPlacedInBuffer : Obligations.PayloadPlacedInBuffer :=
  fun _ _ _ h8 => ⟨placed_length h8, placed_length h8, fun _ => placed_little_payload,
    fun _ hi hL => placed_little_fill hL hi, fun j _ => placed_big_payload j, fun _ => placed_big_fill⟩

/-- Settles O31: unsigned decodes are the values of the payloads, and the shorter payload begins the longer. -/
theorem shorterDecodeSeesLowOrHighBytes : Obligations.ShorterDecodeSeesLowOrHighBytes := by
  intro b din L L' _ hlt h8
  have hL (order) := decInt_unsigned_toNat b order (p := lanes din L) (by simpa using h8)
  have hL' (order) := decInt_unsigned_toNat b order (p := lanes din L') (by simp; omega)
  rw [hL, hL', hL, hL']
  constructor
  · have hdvd : 2 ^ (8 * L') ∣ 2 ^ (8 * L) := Nat.pow_dvd_pow 2 (by omega)
    simp only [wireVal, leVal_lanes, Nat.mod_mod_of_dvd _ hdvd]
  · simp only [wireVal]
    rw [← lanes_take din hlt.le, beVal_take, lanes_length]

/-- Settles O38: each host-to-wire row answers a byte sequence in Little order and its reverse in Big. -/
theorem bigOutputReversesLittleOutput : Obligations.BigOutputReversesLittleOutput := by
  intro b n m v
  suffices h : ∀ ops ∈ [(0b1000#4, 0b1001#4), (0b1010#4, 0b1011#4), (0b1100#4, 0b1101#4),
      (0b1110#4, 0b1111#4)], (ncu b (ops.1 ++ n) v).Reverses (ncu b (ops.2 ++ m) v) from h
  simp only [List.forall_mem_cons, ncu_append_len]
  refine ⟨?encu, ?encs, ?encf, ?fromhost, List.forall_mem_nil _⟩
  case encu => exact encodeInteger_reverses b .unsigned v
  case encs => exact encodeInteger_reverses b .signed v
  case encf => exact encodeFloat_reverses b v
  case fromhost => exact normalizeOut_reverses b v

/-- Settles O53: a step keeps the inputs, and settling on the same outputs again changes nothing. -/
theorem repeatedTransactionChangesNothing : Obligations.RepeatedTransactionChangesNothing := by
  intro s s' h
  obtain ⟨hd, rfl⟩ := step_next h
  rw [step_eq_settle (by simpa using hd), State.settle_cmd, State.settle_din, State.settle_settle]

/-- Settles O54, by induction on the transactions, from every state the earlier ones can leave. -/
theorem sessionAnswersEachTransactionAlone : Obligations.SessionAnswersEachTransactionAlone := by
  intro s ts
  induction ts generalizing s with
  | nil => exact session_nil s
  | cons t ts ih => rw [session_cons, ih]; rfl

end Sys2Proof.Machine
end

section
/-! PROOFS. The command word (30_encoding.md): encoder and decoder are inverse, and match under mask selects
the row (R60 to R67); `LEN` where it is not read (R68 b); the source's decode and normalizer calls, from
the line to the reading of the answer (R69 to R71). -/

namespace Sys2Proof.Machine

/-! ### The selecting fields and `LEN` -/

/-- The three selecting fields stand in the bits that the mask keeps (R61 to R63, R66). -/
theorem fields_and_matchMask (cmd : Byte) :
    directionOf (cmd &&& matchMask) = directionOf cmd ∧ kindOf (cmd &&& matchMask) = kindOf cmd ∧
      orderOf (cmd &&& matchMask) = orderOf cmd := by
  revert cmd
  decide

/-- A row's match carries the row's fields: they select the row back (R66, R67). -/
theorem selectRow_matchWord (i : Instr) :
    selectRow (directionOf (matchWord i)) (kindOf (matchWord i)) (orderOf (matchWord i)) i.len = i := by
  cases i <;> simp [selectRow, matchWord, directionOf, kindOf, orderOf, Instr.len]

/-- A word that has a row's match under the mask decodes to that row (R66). -/
theorem decode_of_match {cmd : Byte} {i : Instr} (hrow : cmd &&& matchMask = matchWord i)
    (hlen : lenOf cmd = i.len) : decode cmd = i := by
  obtain ⟨hdir, hkind, hord⟩ := fields_and_matchMask cmd
  rw [decode, ← hdir, ← hkind, ← hord, hrow, hlen, selectRow_matchWord]

/-- The masked word is the match of the row it decodes to. -/
theorem matchWord_decode (cmd : Byte) : matchWord (decode cmd) = cmd &&& matchMask := by
  revert cmd
  decide

theorem lenOf_eq (cmd : Byte) : lenOf cmd = cmd.toNat % 16 := by
  simp [lenOf]

/-- Match under mask is decoding, for a row with the word's own `LEN` (R66). -/
theorem match_iff_decode_eq {cmd : Byte} {i : Instr} (hlen : cmd.toNat % 16 = i.len) :
    cmd &&& matchMask = matchWord i ↔ decode cmd = i :=
  ⟨fun hrow => decode_of_match hrow (lenOf_eq cmd ▸ hlen),
    fun hdec => by rw [← matchWord_decode, hdec]⟩

/-- A word is its masked part with its low four bits. -/
theorem and_matchMask_or_len (cmd : Byte) :
    cmd &&& matchMask ||| BitVec.ofNat 8 (cmd.toNat % 16) = cmd := by
  revert cmd
  decide

/-! ### The encoder's word -/

/-- The encoder's word has the row's match and the instruction's `LEN`, for each of the 16 rows. -/
theorem encodedRow : ∀ i : Instr, Laws.EncodedRow.Statement i
  | .decuBe n => Laws.EncodedRow.decuBe n
  | .decuLe n => Laws.EncodedRow.decuLe n
  | .decsBe n => Laws.EncodedRow.decsBe n
  | .decsLe n => Laws.EncodedRow.decsLe n
  | .decfBe n => Laws.EncodedRow.decfBe n
  | .decfLe n => Laws.EncodedRow.decfLe n
  | .tohostBe n => Laws.EncodedRow.tohostBe n
  | .tohostLe n => Laws.EncodedRow.tohostLe n
  | .encuBe n => Laws.EncodedRow.encuBe n
  | .encuLe n => Laws.EncodedRow.encuLe n
  | .encsBe n => Laws.EncodedRow.encsBe n
  | .encsLe n => Laws.EncodedRow.encsLe n
  | .encfBe n => Laws.EncodedRow.encfBe n
  | .encfLe n => Laws.EncodedRow.encfLe n
  | .fromhostBe n => Laws.EncodedRow.fromhostBe n
  | .fromhostLe n => Laws.EncodedRow.fromhostLe n

theorem decode_encode {i : Instr} (h : i.wellFormed = true) : decode (encode i) = i := by
  obtain ⟨hrow, hlen⟩ := encodedRow i h
  exact decode_of_match hrow hlen

theorem encode_decode (cmd : Byte) : encode (decode cmd) = cmd := by
  rw [encode, matchWord_decode, decode_len, and_matchMask_or_len]

theorem decode_wellFormed (cmd : Byte) : (decode cmd).wellFormed = true := by
  rw [Instr.wellFormed, decode_len]
  exact decide_eq_true (Nat.mod_lt _ (by decide))

/-! ### `LEN` where it is not read -/

/-- No operation of the rows from 6 up, those that take no length, has a failing input (R68 b). -/
theorem convert_ne_invalidLength (b : Build) (din : Word) {i : Instr} (hrow : 96 ≤ (matchWord i).toNat) :
    convert b i din ≠ .invalidLength := by
  cases i with
  | decuBe _ | decuLe _ | decsBe _ | decsLe _ | decfBe _ | decfLe _ => simp [matchWord] at hrow
  | tohostBe _ | tohostLe _ | encuBe _ | encuLe _ | encsBe _ | encsLe _ | encfBe _ | encfLe _
  | fromhostBe _ | fromhostLe _ => exact Conversion.noConfusion

/-! ### A line and its answer -/

section Line

variable {dir : Direction} {kind : Kind} {order : Endianness} {n : Nat}

@[simp] theorem selectRow_len : (selectRow dir kind order n).len = n := by
  cases dir <;> cases kind <;> cases order <;> rfl

theorem selectRow_wellFormed (h : n < 16) : (selectRow dir kind order n).wellFormed = true := by
  simpa [Instr.wellFormed] using h

theorem directionOf_matchWord_selectRow : directionOf (matchWord (selectRow dir kind order n)) = dir := by
  cases dir <;> cases kind <;> cases order <;> simp [selectRow, matchWord, directionOf]

/-- The requester reads the answer by the direction that the line's mnemonic has. -/
theorem directionOf_encode_selectRow (h : n < 16) :
    directionOf (encode (selectRow dir kind order n)) = dir := by
  obtain ⟨hrow, -⟩ := encodedRow _ (selectRow_wellFormed (dir := dir) (kind := kind) (order := order) h)
  rw [← (fields_and_matchMask _).1, hrow, directionOf_matchWord_selectRow]

end Line

/-- A line without an explicit length is answered with the outcome of its mnemonic's row (R69, R70). -/
theorem transact_eq (b : Build) (m : Mnemonic) (order : Endianness) (operand : Operand) {n : Nat}
    {din : Word} (hop : assembleOperand m operand = some (n, din)) (hn : n < 16) :
    transact b ⟨m, order, operand, none⟩ =
      some (readOutputs (encode (selectRow m.direction m.kind order n))
        (portsOf (convert b (selectRow m.direction m.kind order n) din))) := by
  have hwf : (selectRow m.direction m.kind order n).wellFormed = true := selectRow_wellFormed hn
  simp [transact, assemble, hop, hwf, ncu, decode_encode hwf]

theorem transact_eq_none (b : Build) (m : Mnemonic) (order : Endianness) (operand : Operand)
    (hop : assembleOperand m operand = none) : transact b ⟨m, order, operand, none⟩ = none := by
  simp [transact, assemble, hop]

@[simp] theorem readOutputs_invalidLength (cmd : Byte) :
    readOutputs cmd (portsOf .invalidLength) = .invalidLength := rfl

theorem readOutputs_value {cmd : Byte} (h : directionOf cmd = .wireToHost) (d : Word) (n : Nat) :
    readOutputs cmd (portsOf (.ok d n)) = .value d := by
  simp [readOutputs, statusOk, h]

theorem readOutputs_bytes {cmd : Byte} (h : directionOf cmd = .hostToWire) {p : Bytes}
    (hp : p.length ≤ 8) : readOutputs cmd (portsOf (.ok (pack p) p.length)) = .bytes p := by
  rw [← congrArg Reading.bytes (lanes_portsOf_pack hp)]
  simp [readOutputs, statusOk, h]

/-! ### Closed forms of the decodes -/

theorem toHost_eq_wireVal (host : Endianness) (B : Bytes) (order : Endianness) :
    toHost host B order = BitVec.ofNat 64 (wireVal order B) := by
  cases order with
  | big => exact toHost_big host B
  | little => exact toHost_little host B

/-- The buffer's value: the payload's, and the extension bytes above it (20_memory.md R45). -/
theorem wireVal_placed (order : Endianness) (fill : Byte) (p : Bytes) :
    wireVal order (placed order fill p) =
      wireVal order p + 2 ^ (8 * p.length) * leVal (List.replicate (8 - p.length) fill) := by
  cases order with
  | big => exact beVal_placed_big fill p
  | little => exact leVal_placed_little fill p

theorem msb_leVal_append (q : Bytes) (c : Byte) :
    (BitVec.ofNat (8 * (q ++ [c]).length) (leVal (q ++ [c]))).msb = c.msb := by
  have hval : leVal (q ++ [c]) = 2 ^ (8 * q.length) * c.toNat + leVal q := by
    simp [leVal_append, Nat.add_comm]
  have hlen : 8 * (q ++ [c]).length = 8 * q.length + 8 := by
    simp only [List.length_append, List.length_singleton, Nat.mul_add]
  rw [BitVec.msb_eq_getLsbD_last, BitVec.msb_eq_getLsbD_last, BitVec.getLsbD_ofNat, hlen, hval,
    Nat.testBit_two_pow_mul_add _ (leVal_lt q)]
  simp [BitVec.getLsbD]

theorem msb_leVal {p : Bytes} (h : 1 ≤ p.length) :
    (BitVec.ofNat (8 * p.length) (leVal p)).msb = (msbByte .little p).msb := by
  have hne : p ≠ [] := List.ne_nil_of_length_pos h
  have hmsb := msb_leVal_append p.dropLast (p.getLast hne)
  rw [List.dropLast_append_getLast hne] at hmsb
  rw [hmsb, msbByte, List.getLastD_eq_getLast?, List.getLast?_eq_getLast_of_ne_nil hne]
  rfl

/-- The sign of a payload's pattern is that of its most significant byte (41_integer_decode.md R101). -/
theorem msb_wireVal (order : Endianness) {p : Bytes} (h : 1 ≤ p.length) :
    (BitVec.ofNat (8 * p.length) (wireVal order p)).msb = (msbByte order p).msb := by
  cases order with
  | little => exact msb_leVal h
  | big =>
    have hrev := msb_leVal (p := p.reverse) (by simpa using h)
    rwa [List.length_reverse, ← beVal_eq_leVal_reverse, ← msbByte_reverse, List.reverse_reverse] at hrev

theorem decInt_unsigned (b : Build) (order : Endianness) (p : Bytes) :
    decInt b .unsigned order p = BitVec.ofNat 64 (wireVal order p) := by
  simp [decInt, extFill, toHost_eq_wireVal, wireVal_placed]

/-- `2^(8L)` times the all-ones extension is what sign extension adds to a negative pattern. -/
theorem two_pow_mul_leVal_replicate_ones {L : Nat} (h : L ≤ 8) :
    2 ^ (8 * L) * leVal (List.replicate (8 - L) 0xFF#8) = 2 ^ 64 - 2 ^ (8 * L) := by
  have hones : leVal (List.replicate (8 - L) 0xFF#8) = 2 ^ (8 * (8 - L)) - 1 :=
    Nat.eq_sub_of_add_eq (leVal_replicate_ones _)
  rw [hones, Nat.mul_sub, ← Nat.pow_add, Nat.mul_one]
  congr 2
  omega

theorem decInt_signed (b : Build) (order : Endianness) {p : Bytes} (h1 : 1 ≤ p.length)
    (h8 : p.length ≤ 8) :
    decInt b .signed order p = (BitVec.ofNat (8 * p.length) (wireVal order p)).signExtend 64 := by
  have hw := wireVal_lt order p
  have hpow : 2 ^ (8 * p.length) ≤ 2 ^ 64 := Nat.pow_le_pow_right (by decide) (by omega)
  refine BitVec.eq_of_toNat_eq ?_
  rw [BitVec.toNat_signExtend, msb_wireVal order h1, BitVec.toNat_setWidth, BitVec.toNat_ofNat,
    Nat.mod_eq_of_lt hw, Nat.mod_eq_of_lt (hw.trans_le hpow), decInt, toHost_eq_wireVal,
    wireVal_placed, BitVec.toNat_ofNat, extFill]
  split
  next => rw [two_pow_mul_leVal_replicate_ones h8]; exact Nat.mod_eq_of_lt (by omega)
  next => rw [leVal_replicate_zero]; exact Nat.mod_eq_of_lt (hw.trans_le hpow)

theorem fltPattern8_eq (b : Build) (order : Endianness) (p : Bytes) :
    fltPattern8 b order p = BitVec.ofNat 64 (wireVal order p) := toHost_eq_wireVal ..

theorem fltPattern4_eq (b : Build) (order : Endianness) (p : Bytes) :
    fltPattern4 b order p = BitVec.ofNat 32 (wireVal order p) := by
  simp [fltPattern4, toHost_eq_wireVal, wireVal_placed, BitVec.setWidth_ofNat_of_le]

/-! ### Decode calls -/

/-- The bytes of a payload that fits are read back from `din` as they were written (R70). -/
theorem lanes_pack_take {p : Bytes} {n : Nat} (hp : p.length = n) (hn : n ≤ 8) :
    lanes (pack (p.take 8)) n = p := by
  subst hp
  rw [List.take_of_length_le hn, lanes_pack hn]

section DecodeCall

variable (b : Build) (order : Endianness) {cmd : Byte} (hdir : directionOf cmd = .wireToHost)
include hdir

/-- The answer to the `LEN` and `din` of an integer decode call: `LEN` saturates at 15 and `din` holds
8 bytes, so a permitted length is presented as it is and every other stays forbidden (R70, D14). -/
theorem readOutputs_decodeInteger (kind : Signedness) (p : Bytes) :
    readOutputs cmd (portsOf (decodeInteger b kind order (min p.length 15) (pack (p.take 8)))) =
      if p.length < 1 ∨ p.length > 8 then .invalidLength else .value (decInt b kind order p) := by
  rw [decodeInteger_eq]
  by_cases h : p.length < 1 ∨ p.length > 8
  · rw [if_pos (by omega), if_pos h, readOutputs_invalidLength]
  · rw [if_neg (by omega), if_neg h, readOutputs_value hdir, Nat.min_eq_left (by omega),
      lanes_pack_take rfl (by omega)]

/-- The answer to the `LEN` and `din` of a float decode call, likewise. -/
theorem readOutputs_decodeFloat (p : Bytes) :
    readOutputs cmd (portsOf (decodeFloat b order (min p.length 15) (pack (p.take 8)))) =
      if p.length = 8 then .value (fltPattern8 b order p)
      else if p.length = 4 then .value (widen b (fltPattern4 b order p)) else .invalidLength := by
  rw [decodeFloat_eq]
  by_cases h8 : p.length = 8
  · rw [if_pos (by omega), if_pos h8, readOutputs_value hdir, lanes_pack_take h8 (by decide)]
  · rw [if_neg (by omega), if_neg h8]
    by_cases h4 : p.length = 4
    · rw [if_pos (by omega), if_pos h4, readOutputs_value hdir, lanes_pack_take h4 (by decide)]
    · rw [if_neg (by omega), if_neg h4, readOutputs_invalidLength]

end DecodeCall

theorem convert_decu (b : Build) (order : Endianness) (n : Nat) (din : Word) :
    convert b (selectRow .wireToHost .unsigned order n) din = decodeInteger b .unsigned order n din := by
  cases order <;> rfl

theorem convert_decs (b : Build) (order : Endianness) (n : Nat) (din : Word) :
    convert b (selectRow .wireToHost .signed order n) din = decodeInteger b .signed order n din := by
  cases order <;> rfl

theorem convert_decf (b : Build) (order : Endianness) (n : Nat) (din : Word) :
    convert b (selectRow .wireToHost .float order n) din = decodeFloat b order n din := by
  cases order <;> rfl

/-- Every payload is presented with a `LEN` that the field admits (R64, R70). -/
theorem min_length_lt (p : Bytes) : min p.length 15 < 16 := by omega

/-- The line of either integer decode, answered. -/
theorem transact_integer_line (b : Build) (p : Bytes) (order : Endianness) {m : Mnemonic}
    {kind : Signedness} (hdir : m.direction = .wireToHost)
    (hop : assembleOperand m (.bytes p) = some (min p.length 15, pack (p.take 8)))
    (hconv : ∀ n din, convert b (selectRow m.direction m.kind order n) din =
      decodeInteger b kind order n din) :
    transact b ⟨m, order, .bytes p, none⟩ =
      some (if p.length < 1 ∨ p.length > 8 then .invalidLength
        else .value (decInt b kind order p)) := by
  rw [transact_eq b m order _ hop (min_length_lt p), hconv,
    readOutputs_decodeInteger b order ((directionOf_encode_selectRow (min_length_lt p)).trans hdir)]

theorem transact_decode_unsigned (b : Build) (p : Bytes) (order : Endianness) :
    transact b (SourceCall.decode p .unsigned order).expand =
      some (if p.length < 1 ∨ p.length > 8 then .invalidLength
        else .value (decInt b .unsigned order p)) :=
  transact_integer_line b p order (m := .decu) rfl rfl (convert_decu b order)

theorem transact_decode_signed (b : Build) (p : Bytes) (order : Endianness) :
    transact b (SourceCall.decode p .signed order).expand =
      some (if p.length < 1 ∨ p.length > 8 then .invalidLength
        else .value (decInt b .signed order p)) :=
  transact_integer_line b p order (m := .decs) rfl rfl (convert_decs b order)

theorem transact_decode_float (b : Build) (p : Bytes) (order : Endianness) :
    transact b (SourceCall.decode p .float order).expand =
      some (if p.length = 8 then .value (fltPattern8 b order p)
        else if p.length = 4 then .value (widen b (fltPattern4 b order p)) else .invalidLength) := by
  rw [SourceCall.expand, transact_eq b .decf order (.bytes p) rfl (min_length_lt p), Mnemonic.direction,
    Mnemonic.kind, convert_decf,
    readOutputs_decodeFloat b order (directionOf_encode_selectRow (min_length_lt p))]

/-! ### Normalizer calls -/

theorem convert_tohost (b : Build) (order : Endianness) (n : Nat) (din : Word) :
    convert b (selectRow .wireToHost .raw order n) din = normalizeIn b order din := by
  cases order <;> rfl

theorem convert_fromhost (b : Build) (order : Endianness) (n : Nat) (din : Word) :
    convert b (selectRow .hostToWire .raw order n) din = normalizeOut b order din := by
  cases order <;> rfl

@[simp] theorem fromHost_length (host : Endianness) (v : Word) (order : Endianness) :
    (fromHost host v order).length = 8 := by
  cases order <;> simp [fromHost_little, fromHost_big]

/-- `from_host` then `to_host` is the identity, whatever the host order (40_normalizer.md R81). -/
theorem toHost_fromHost (host : Endianness) (v : Word) (order : Endianness) :
    toHost host (fromHost host v order) order = v := by
  cases order with
  | little => rw [fromHost_little, toHost_little, ← pack, pack_lanes]
  | big => rw [fromHost_big, toHost_big, ← leVal_eq_beVal_reverse, ← pack, pack_lanes]

theorem transact_toHost (b : Build) {p : Bytes} (order : Endianness) (h : p.length = 8) :
    transact b (SourceCall.toHost p order).expand = some (.value (toHost b.hostOrder p order)) := by
  have hop : assembleOperand .tohost (.bytes p) = some (0, pack p) := if_pos h
  have hlanes : lanes (pack p) 8 = p := h ▸ lanes_pack h.le
  rw [SourceCall.expand, transact_eq b .tohost order _ hop (by decide), Mnemonic.direction, Mnemonic.kind,
    convert_tohost, normalizeIn, hlanes, readOutputs_value (directionOf_encode_selectRow (by decide))]

theorem transact_toHost_of_length_ne (b : Build) {p : Bytes} (order : Endianness) (h : p.length ≠ 8) :
    transact b (SourceCall.toHost p order).expand = none :=
  transact_eq_none b .tohost order (.bytes p) (if_neg h)

theorem transact_fromHost (b : Build) (v : Word) (order : Endianness) :
    transact b (SourceCall.fromHost v order).expand =
      some (.bytes (fromHost b.hostOrder v order)) := by
  have hlen := fromHost_length b.hostOrder v order
  have hdir : directionOf (encode (selectRow .hostToWire .raw order 0)) = .hostToWire :=
    directionOf_encode_selectRow (by decide)
  have hread := readOutputs_bytes hdir hlen.le
  rw [hlen] at hread
  rw [SourceCall.expand, transact_eq b .fromhost order (.pattern v) rfl (by decide), Mnemonic.direction,
    Mnemonic.kind, convert_fromhost, normalizeOut, hread]

/-- `BSWAP64` is `TOHOST.BE` of the value's own lanes (R71, R87). -/
theorem transact_bswap64 (b : Build) (v : Word) :
    transact b (SourceCall.bswap64 v).expand = some (.value (pack (lanes v 8).reverse)) := by
  rw [pack, leVal_eq_beVal_reverse, List.reverse_reverse, ← toHost_big b.hostOrder]
  exact transact_toHost b .big (lanes_length v 8)

/-! ### The obligations -/

/-- Settles O1: the encoder's word has the row's match, whose fields select the row, and its `LEN`. -/
theorem decodeReadsEncodedInstruction : Obligations.DecodeReadsEncodedInstruction :=
  fun _ => decode_encode

/-- Settles O55: the saturated `LEN` is permitted exactly where the payload's length is, and the answer
is the decode's closed form. -/
theorem decodeCallOfAnyLength : Obligations.DecodeCallOfAnyLength := by
  intro b p order
  refine ⟨?unsigned, ?signed, ?float⟩
  case unsigned => rw [transact_decode_unsigned, decInt_unsigned]
  case signed =>
    rw [transact_decode_signed]
    split
    next => rfl
    next h => rw [decInt_signed b order (by omega) (by omega)]
  case float => rw [transact_decode_float, fltPattern8_eq, fltPattern4_eq]

/-- Settles O57, one clause for each call. -/
theorem normalizerCalls : Obligations.NormalizerCalls := by
  intro b p v order
  refine ⟨transact_toHost_of_length_ne b order, transact_fromHost b v order, ?_, transact_bswap64 b v⟩
  rw [transact_toHost b order (fromHost_length ..), toHost_fromHost]

/-- Settles O2: the decoded row is the masked word, and its `LEN` the rest of the word. -/
theorem encodeCoversEveryCommandWord : Obligations.EncodeCoversEveryCommandWord :=
  fun cmd => ⟨decode_wellFormed cmd, encode_decode cmd⟩

/-- Settles O3, each row by the same equivalence. -/
theorem opcodeRowSelectedByMatchAndMask : Obligations.OpcodeRowSelectedByMatchAndMask := by
  intro cmd L
  have row (i : Instr) (h : L = i.len) : cmd &&& 0xF0#8 = matchWord i ↔ decode cmd = i :=
    match_iff_decode_eq h
  exact ⟨row (.decuBe L) rfl, row (.decuLe L) rfl, row (.decsBe L) rfl, row (.decsLe L) rfl,
    row (.decfBe L) rfl, row (.decfLe L) rfl, row (.tohostBe L) rfl, row (.tohostLe L) rfl,
    row (.encuBe L) rfl, row (.encuLe L) rfl, row (.encsBe L) rfl, row (.encsLe L) rfl,
    row (.encfBe L) rfl, row (.encfLe L) rfl, row (.fromhostBe L) rfl, row (.fromhostLe L) rfl⟩

/-- Settles O4: ten closed words, each decoded. -/
theorem specExampleWordsDecode : Obligations.SpecExampleWordsDecode := by
  unfold Obligations.SpecExampleWordsDecode
  decide

/-- Settles O6: the ten operations do not pass `LEN` on, and stand in the rows without a failing input. -/
theorem lengthFieldIgnoredWhereNotRead : Obligations.LengthFieldIgnoredWhereNotRead := by
  intro b n m din
  refine ⟨rfl, rfl, rfl, rfl, rfl, rfl, rfl, rfl, rfl, rfl, fun i hi => ?_⟩
  refine convert_ne_invalidLength b din ?_
  revert i
  simp [matchWord]

end Sys2Proof.Machine
end

section
/-! PROOFS. The Byte-Order Normalizer (40_normalizer.md): the four `Raw` operations and their port functions
(R82 to R85, R87), the closed forms of `to_host` and `from_host` and that they are inverse (R80, R81), and
that no output depends on `HOST_ORDER` (R86). -/

namespace Sys2Proof.Machine

/-! ### The 64-bit byte swap -/

/-- The value whose lane `i` is lane `7-i` of `d`: the one port function of `TOHOST.BE` and `FROMHOST.BE`
(40_normalizer.md R87). -/
def byteSwap (d : Word) : Word := pack (lanes d 8).reverse

theorem byteSwap_eq_beVal (d : Word) : byteSwap d = BitVec.ofNat 64 (beVal (lanes d 8)) := by
  rw [byteSwap, pack, beVal_eq_leVal_reverse]

theorem lanes_byteSwap (d : Word) : lanes (byteSwap d) 8 = (lanes d 8).reverse := by
  have h := lanes_pack (p := (lanes d 8).reverse) (by simp)
  rwa [List.length_reverse, lanes_length] at h

theorem byteSwap_byteSwap (d : Word) : byteSwap (byteSwap d) = d := by
  rw [byteSwap, lanes_byteSwap, List.reverse_reverse, pack_lanes]

theorem lane_byteSwap (d : Word) {i : Nat} (h : i < 8) : lane (byteSwap d) i = lane d (7 - i) := by
  rw [byteSwap, lane_pack (by simp) h, List.getElem_reverse, lanes_getElem, lanes_length]

/-! ### The four operations: their words and their outcomes -/

section Raw

variable (b : Build) (L : Nat) (n : BitVec 4) (din : Word)

theorem decode_tohostBe : decode (0b0110#4 ++ n) = .tohostBe n.toNat := decode_append_len _ n

theorem decode_tohostLe : decode (0b0111#4 ++ n) = .tohostLe n.toNat := decode_append_len _ n

theorem decode_fromhostBe : decode (0b1110#4 ++ n) = .fromhostBe n.toNat := decode_append_len _ n

theorem decode_fromhostLe : decode (0b1111#4 ++ n) = .fromhostLe n.toNat := decode_append_len _ n

theorem convert_tohostBe : convert b (.tohostBe L) din = .ok (byteSwap din) 8 := by
  rw [convert, tohostBe, normalizeIn, toHost_big, byteSwap_eq_beVal]

theorem convert_tohostLe : convert b (.tohostLe L) din = .ok din 8 := by
  rw [convert, tohostLe, normalizeIn, toHost_little, ← pack, pack_lanes]

theorem convert_fromhostBe : convert b (.fromhostBe L) din = .ok (byteSwap din) 8 := by
  rw [convert, fromhostBe, normalizeOut, fromHost_big, byteSwap]

theorem convert_fromhostLe : convert b (.fromhostLe L) din = .ok din 8 := by
  rw [convert, fromhostLe, normalizeOut, fromHost_little, pack_lanes]

end Raw

/-- An operation with a data outcome puts it on the output ports and changes nothing else. -/
theorem exec_of_convert_ok {i : Instr} {s : State} {d : Word} {n : Nat}
    (h : convert build i s.din = .ok d n) :
    exec i s = .next { s with dout := d, lout := BitVec.ofNat 4 n, status := 0b00#2 } := by
  rw [exec_eq_complete, h, complete_ok]

/-! ### `to_host` and `from_host` -/

/-- `to_host` then `from_host` is the identity on 8 bytes, whatever the host order (R81). -/
theorem fromHost_toHost (host : Endianness) {B : Bytes} (order : Endianness) (h : B.length = 8) :
    fromHost host (toHost host B order) order = B := by
  have hlanes {p : Bytes} (hp : p.length = 8) : lanes (pack p) 8 = p := hp ▸ lanes_pack hp.le
  cases order with
  | little => rw [toHost_little, fromHost_little, ← pack, hlanes h]
  | big =>
    rw [toHost_big, fromHost_big, beVal_eq_leVal_reverse, ← pack, hlanes (by simpa using h),
      List.reverse_reverse]

/-! ### `HOST_ORDER` is not observable -/

theorem toHost_host_irrelevant (host host' : Endianness) (B : Bytes) (order : Endianness) :
    toHost host B order = toHost host' B order := by
  rw [toHost_eq_wireVal, toHost_eq_wireVal]

theorem fromHost_host_irrelevant (host host' : Endianness) (v : Word) (order : Endianness) :
    fromHost host v order = fromHost host' v order := by
  cases order with
  | little => rw [fromHost_little, fromHost_little]
  | big => rw [fromHost_big, fromHost_big]

section HostOrder

variable {b b' : Build}

theorem decodeInteger_build_irrelevant (kind : Signedness) (order : Endianness) (L : Nat) (din : Word) :
    decodeInteger b kind order L din = decodeInteger b' kind order L din := by
  simp only [decodeInteger, decInt, toHost_host_irrelevant b.hostOrder b'.hostOrder]

theorem encodeInteger_build_irrelevant (kind : Signedness) (order : Endianness) (din : Word) :
    encodeInteger b kind order din = encodeInteger b' kind order din := by
  simp only [encodeInteger, encInt, fromHost_host_irrelevant b.hostOrder b'.hostOrder]

theorem normalizeIn_build_irrelevant (order : Endianness) (din : Word) :
    normalizeIn b order din = normalizeIn b' order din := by
  simp only [normalizeIn, toHost_host_irrelevant b.hostOrder b'.hostOrder]

theorem normalizeOut_build_irrelevant (order : Endianness) (din : Word) :
    normalizeOut b order din = normalizeOut b' order din := by
  simp only [normalizeOut, fromHost_host_irrelevant b.hostOrder b'.hostOrder]

/-- Widening reads `NAN_WIDEN` of the build and nothing else (43_float.md R145). -/
theorem widen_eq_of_nanWiden_eq (h : b.nanWiden = b'.nanWiden) : widen b = widen b' := by
  funext w
  simp only [widen, h]

theorem decodeFloat_eq_of_nanWiden_eq (h : b.nanWiden = b'.nanWiden) (order : Endianness) (L : Nat)
    (din : Word) : decodeFloat b order L din = decodeFloat b' order L din := by
  simp only [decodeFloat, fltPattern8_eq, fltPattern4_eq, widen_eq_of_nanWiden_eq h]

/-- `NAN_WIDEN` is the only part of a build that an outcome can depend on (R86). -/
theorem convert_eq_of_nanWiden_eq (h : b.nanWiden = b'.nanWiden) (i : Instr) (din : Word) :
    convert b i din = convert b' i din := by
  cases i with
  | decuBe _ | decuLe _ | decsBe _ | decsLe _ => exact decodeInteger_build_irrelevant ..
  | decfBe _ | decfLe _ => exact decodeFloat_eq_of_nanWiden_eq h ..
  | tohostBe _ | tohostLe _ => exact normalizeIn_build_irrelevant ..
  | encuBe _ | encuLe _ | encsBe _ | encsLe _ => exact encodeInteger_build_irrelevant ..
  | encfBe _ | encfLe _ | fromhostBe _ | fromhostLe _ => exact normalizeOut_build_irrelevant ..

end HostOrder

/-! ### The obligations -/

/-- Settles O7: the byte swap is the Big value of the lanes. -/
theorem tohostBeReadsBigOrderBytes : Obligations.TohostBeReadsBigOrderBytes :=
  ⟨decode_tohostBe, fun L s =>
    byteSwap_eq_beVal s.din ▸ exec_of_convert_ok (convert_tohostBe build L s.din)⟩

/-- Settles O8: packing the lanes of `din` gives `din` back. -/
theorem tohostLeReadsLittleOrderBytes : Obligations.TohostLeReadsLittleOrderBytes :=
  ⟨decode_tohostLe, fun L s => ⟨exec_of_convert_ok (convert_tohostLe build L s.din),
    (pack_lanes s.din).symm⟩⟩

/-- Settles O9: the byte swap packs the lanes from lane 7 down. -/
theorem fromhostBeLaysOutBigOrder : Obligations.FromhostBeLaysOutBigOrder :=
  ⟨decode_fromhostBe, fun L s => exec_of_convert_ok (convert_fromhostBe build L s.din)⟩

/-- Settles O10: packing the lanes of `din` gives `din` back. -/
theorem fromhostLeLaysOutLittleOrder : Obligations.FromhostLeLaysOutLittleOrder :=
  ⟨decode_fromhostLe, fun L s => ⟨exec_of_convert_ok (convert_fromhostLe build L s.din),
    (pack_lanes s.din).symm⟩⟩

/-- Settles O23, one clause for each closed form and each direction of the inverse. -/
theorem normalizerClosedFormAndInverse : Obligations.NormalizerClosedFormAndInverse :=
  fun host order =>
    ⟨fun B h => ⟨toHost_little host B, toHost_big host B, fromHost_toHost host order h⟩,
      fun v => ⟨fromHost_little host v, fromHost_big host v, toHost_fromHost host v order⟩⟩

/-- Settles O24: the closed forms do not name the host order, and every operation reaches it through them. -/
theorem hostOrderUnobservable : Obligations.HostOrderUnobservable :=
  ⟨fun order B v _ => ⟨toHost_host_irrelevant .little .big B order,
      fromHost_host_irrelevant .little .big v order⟩,
    fun nan cmd din => congrArg portsOf
      (convert_eq_of_nanWiden_eq (b := ⟨.little, nan⟩) (b' := ⟨.big, nan⟩) rfl (decode cmd) din)⟩

/-- Settles O25: both Big operations are the byte swap, and both Little ones pass `din` through. -/
theorem rawOperationsAsPortFunctions : Obligations.RawOperationsAsPortFunctions := by
  intro b n din
  have hin (d : Word) : (ncu b (0b0110#4 ++ n) d).dout = byteSwap d := by
    rw [ncu, decode_tohostBe, convert_tohostBe, portsOf_ok]
  have hout : (ncu b (0b1110#4 ++ n) din).dout = byteSwap din := by
    rw [ncu, decode_fromhostBe, convert_fromhostBe, portsOf_ok]
  refine ⟨?tohostBe, ?fromhostBe, ?tohostLe, ?fromhostLe, ?involution⟩
  case tohostBe => exact hin din ▸ fun _ => lane_byteSwap din
  case fromhostBe => exact hout ▸ fun _ => lane_byteSwap din
  case tohostLe => rw [ncu, decode_tohostLe, convert_tohostLe, portsOf_ok]
  case fromhostLe => rw [ncu, decode_fromhostLe, convert_fromhostLe, portsOf_ok]
  case involution => rw [hin, hin, byteSwap_byteSwap]

end Sys2Proof.Machine
end

section
/-! PROOFS. Integer decode (41_integer_decode.md): the complete outcome of the four operations (R103 to R106),
the closed form and its laws (R102, R107), payloads longer than they need be (R108), and the round trip
through the matching encode, at the ports and as source calls (R109). -/

namespace Sys2Proof.Machine

/-! ### The four operations -/

/-- What an integer decode does to the ports, given the value `d` of its payload on a permitted length. -/
theorem exec_of_convert_decodeInteger {i : Instr} {s : State} {kind : Signedness} {order : Endianness}
    {L : Nat} {d : Word} (hconv : convert build i s.din = decodeInteger build kind order L s.din)
    (hval : 1 ≤ L → L ≤ 8 → decInt build kind order (lanes s.din L) = d) :
    exec i s = .next (if L < 1 ∨ L > 8 then { s with dout := 0#64, lout := 0#4, status := 0b01#2 }
      else { s with dout := d, lout := 8#4, status := 0b00#2 }) := by
  rw [exec_eq_complete, hconv, decodeInteger_eq]
  split
  next => exact complete_invalidLength s
  next h => rw [hval (by omega) (by omega), complete_ok]

/-- The signed value of the first `L` lanes, its pattern having `8*L` bits. -/
theorem decInt_signed_lanes (b : Build) (order : Endianness) (din : Word) {L : Nat} (h1 : 1 ≤ L)
    (h8 : L ≤ 8) : decInt b .signed order (lanes din L) =
      (BitVec.ofNat (8 * L) (wireVal order (lanes din L))).signExtend 64 := by
  rw [decInt_signed b order (by simpa using h1) (by simpa using h8), lanes_length]

/-- The Little value of the first `L` lanes is `din & (2^(8L) - 1)` (R104). -/
theorem ofNat_leVal_lanes_eq_and (din : Word) {L : Nat} (h : L ≤ 8) :
    BitVec.ofNat 64 (leVal (lanes din L)) = din &&& BitVec.ofNat 64 (2 ^ (8 * L) - 1) := by
  have hpow : 2 ^ (8 * L) ≤ 2 ^ 64 := Nat.pow_le_pow_right (by decide) (by omega)
  have hmask : (BitVec.ofNat 64 (2 ^ (8 * L) - 1)).toNat = 2 ^ (8 * L) - 1 :=
    Nat.mod_eq_of_lt (by have := Nat.two_pow_pos (8 * L); omega)
  refine BitVec.eq_of_toNat_eq ?_
  rw [BitVec.toNat_and, hmask, Nat.and_two_pow_sub_one_eq_mod, ← leVal_lanes]
  exact pack_toNat (by simpa using h)

/-- The Little pattern of the first `L` lanes is `din[8L-1:0]` (R106). -/
theorem ofNat_leVal_lanes_eq_setWidth (din : Word) (L : Nat) :
    BitVec.ofNat (8 * L) (leVal (lanes din L)) = din.setWidth (8 * L) := by
  refine BitVec.eq_of_toNat_eq ?_
  rw [leVal_lanes, BitVec.toNat_ofNat, BitVec.toNat_setWidth, Nat.mod_mod]

/-! ### The two extensions of a pattern -/

section Extension

variable {w : Nat} (x : BitVec w)

/-- The extensions differ where a bit above the pattern is a copy of a 1. -/
theorem setWidth_eq_signExtend_iff {v : Nat} (h : w ≤ v) :
    x.setWidth v = x.signExtend v ↔ x.msb = false ∨ w = v := by
  constructor
  · intro heq
    by_contra! hne
    have hbit := congrArg (BitVec.getLsbD · w) heq
    have hlt : w < v := by omega
    rw [BitVec.getLsbD_setWidth, BitVec.getLsbD_of_ge x w le_rfl, BitVec.getLsbD_signExtend] at hbit
    exact hne.1 (by simpa [hlt] using hbit)
  · rintro (hmsb | rfl)
    · exact (BitVec.signExtend_eq_setWidth_of_msb_false hmsb).symm
    · rw [BitVec.setWidth_eq, BitVec.signExtend_eq]

theorem setWidth_signExtend {v : Nat} (h : w ≤ v) : (x.signExtend v).setWidth w = x := by
  refine BitVec.eq_of_getLsbD_eq fun i hi => ?_
  have hv : i < v := by omega
  rw [BitVec.getLsbD_setWidth, BitVec.getLsbD_signExtend]
  simp [hi, hv]

/-- Every bit of a sign extension above the pattern copies the pattern's own top bit. -/
theorem getLsbD_signExtend_of_le {v i : Nat} (hpos : 0 < w) (hw : w ≤ i) (hi : i < v) :
    (x.signExtend v).getLsbD i = (x.signExtend v).getLsbD (w - 1) := by
  have htop : w - 1 < v := by omega
  rw [BitVec.getLsbD_signExtend, BitVec.getLsbD_signExtend, if_neg (Nat.not_lt.mpr hw),
    if_pos (Nat.sub_one_lt_of_lt hpos), BitVec.msb_eq_getLsbD_last]
  simp [hi, htop]

end Extension

/-! ### Decode as extension of the payload's pattern -/

theorem decInt_unsigned_eq_setWidth (b : Build) (order : Endianness) {p : Bytes} (h : p.length ≤ 8) :
    decInt b .unsigned order p = (BitVec.ofNat (8 * p.length) (wireVal order p)).setWidth 64 := by
  rw [decInt_unsigned, BitVec.setWidth_ofNat_of_le_of_lt (by omega) (wireVal_lt order p)]

/-- A Big payload is decoded as the reversed payload is in Little order (R107 c). -/
theorem decInt_big (b : Build) (kind : Signedness) (p : Bytes) :
    decInt b kind .big p = decInt b kind .little p.reverse := by
  have hfill := extFill_reverse kind p.reverse
  rw [List.reverse_reverse] at hfill
  rw [decInt, decInt, toHost_big, toHost_little, beVal_eq_leVal_reverse, placed_reverse, hfill]

section Laws

variable (b : Build) (order : Endianness) {p : Bytes} (h1 : 1 ≤ p.length) (h8 : p.length ≤ 8)
include h1 h8

/-- R107 (a). -/
theorem decInt_unsigned_eq_signed_iff : decInt b .unsigned order p = decInt b .signed order p ↔
    (msbByte order p).msb = false ∨ p.length = 8 := by
  have hlen : 8 * p.length = 64 ↔ p.length = 8 := by omega
  rw [decInt_unsigned_eq_setWidth b order h8, decInt_signed b order h1 h8,
    setWidth_eq_signExtend_iff _ (by omega), msb_wireVal order h1, hlen]

/-- R107 (b): decode never changes the low `8*L` bits. -/
theorem setWidth_decInt (kind : Signedness) : (decInt b kind order p).setWidth (8 * p.length) =
    BitVec.ofNat (8 * p.length) (wireVal order p) := by
  cases kind with
  | unsigned => rw [decInt_unsigned, BitVec.setWidth_ofNat_of_le (by omega)]
  | signed => rw [decInt_signed b order h1 h8, setWidth_signExtend _ (by omega)]

end Laws

/-- R107 (b), the unsigned half: zeros above the pattern. -/
theorem getLsbD_decInt_unsigned_of_le (b : Build) (order : Endianness) {p : Bytes} (h8 : p.length ≤ 8)
    {i : Nat} (hi : 8 * p.length ≤ i) : (decInt b .unsigned order p).getLsbD i = false := by
  rw [decInt_unsigned_eq_setWidth b order h8, BitVec.getLsbD_setWidth, BitVec.getLsbD_of_ge _ _ hi,
    Bool.and_false]

/-! ### Payloads with extra extension bytes -/

/-- A payload lengthened by its own extension byte has the same extension byte. -/
theorem extFill_append_extFill (kind : Signedness) (p : Bytes) (k : Nat) :
    extFill kind .little (p ++ List.replicate k (extFill kind .little p)) = extFill kind .little p := by
  cases kind with
  | unsigned => rfl
  | signed =>
    cases k with
    | zero => simp
    | succ k =>
      rw [List.replicate_succ', ← List.append_assoc]
      generalize hfill : extFill .signed .little p = fill
      obtain rfl | rfl : fill = 0x00#8 ∨ fill = 0xFF#8 := hfill ▸ extFill_cases ..
      all_goals simp only [extFill, msbByte, List.getLastD_concat]; rfl

/-- Lengthening a payload by the fill byte leaves the working buffer as it is. -/
theorem placed_little_append_fill (fill : Byte) {p : Bytes} {k : Nat} (h : p.length + k ≤ 8) :
    placed .little fill (p ++ List.replicate k fill) = placed .little fill p := by
  have hcount : k + (8 - (p.length + k)) = 8 - p.length := by omega
  rw [placed, placed, List.append_assoc, List.replicate_append_replicate, List.length_append,
    List.length_replicate, hcount]

theorem decInt_little_append_extFill (b : Build) (kind : Signedness) {p : Bytes} {k : Nat}
    (h : p.length + k ≤ 8) :
    decInt b kind .little (p ++ List.replicate k (extFill kind .little p)) = decInt b kind .little p := by
  rw [decInt, extFill_append_extFill, placed_little_append_fill _ h, decInt]

/-! ### Decode of the encoder's payload -/

/-- Every lane at or above the signed minimal length is pure sign extension, and the byte below it shows the
sign (42_integer_encode.md R121). -/
theorem lane_of_minlenS_le (v : Word) {k : Nat} (hk : minlenS v ≤ k) (h8 : k < 8) :
    lane v k = (if v.msb then 0xFF#8 else 0x00#8) ∧ (lane v (k - 1)).msb = v.msb := by
  obtain ⟨-, -, hext, -⟩ := trimSigned_spec v v.msb (if v.msb then 0xFF#8 else 0x00#8) 8 (by decide)
  exact hext k hk h8

/-- The sign bit stands in the most significant byte that the encoder keeps: that is lane 7, or the trimming
went on past the lane above it. -/
theorem msb_lane_minlenS (v : Word) : (lane v (minlenS v - 1)).msb = v.msb := by
  obtain h8 | hlt := Nat.eq_or_lt_of_le (minlen_bounds .signed v).2
  · rw [minlen] at h8
    rw [h8, lane_msb, BitVec.msb_eq_getLsbD_last]
  · exact (lane_of_minlenS_le v le_rfl hlt).2

theorem msbByte_little_lanes (v : Word) {n : Nat} (h : 1 ≤ n) :
    msbByte .little (lanes v n) = lane v (n - 1) := by
  obtain ⟨m, rfl⟩ := Nat.exists_eq_add_of_le' h
  rw [lanes_succ, msbByte, List.getLastD_concat, Nat.add_sub_cancel]

/-- Every lane that the encoder drops is the extension byte of the lanes it keeps. -/
theorem lane_eq_extFill_of_minlen_le (kind : Signedness) (v : Word) {k : Nat} (hk : minlen kind v ≤ k)
    (h8 : k < 8) : lane v k = extFill kind .little (lanes v (minlen kind v)) := by
  cases kind with
  | unsigned =>
    obtain ⟨-, -, hzero, -⟩ := trimUnsigned_spec v 8 (by decide)
    exact hzero k hk h8
  | signed =>
    rw [extFill, msbByte_little_lanes v (minlen_bounds .signed v).1, minlen, msb_lane_minlenS]
    exact (lane_of_minlenS_le v hk h8).1

theorem lanes_add (v : Word) (n m : Nat) :
    lanes v (n + m) = lanes v n ++ (List.range m).map fun j => lane v (n + j) := by
  simp [lanes, List.range_add]

/-- Placing the kept lanes over dropped ones that were all the fill byte gives every lane back. -/
theorem placed_little_lanes {v : Word} {fill : Byte} {n : Nat} (hn : n ≤ 8)
    (hfill : ∀ k, n ≤ k → k < 8 → lane v k = fill) : placed .little fill (lanes v n) = lanes v 8 := by
  have hdropped : (List.range (8 - n)).map (fun j => lane v (n + j)) = List.replicate (8 - n) fill := by
    refine List.eq_replicate_iff.mpr ⟨by simp, List.forall_mem_map.mpr fun j hj => ?_⟩
    have hj8 := List.mem_range.mp hj
    exact hfill (n + j) (by omega) (by omega)
  rw [placed, lanes_length, ← hdropped, ← lanes_add, Nat.add_sub_cancel' hn]

theorem decInt_encInt_little (b : Build) (kind : Signedness) (v : Word) :
    decInt b kind .little (encInt b kind .little v) = v := by
  rw [encInt_little, decInt, toHost_little,
    placed_little_lanes (minlen_bounds kind v).2 fun _ => lane_eq_extFill_of_minlen_le kind v]
  exact pack_lanes v

/-- Decode undoes encode, on byte sequences (41_integer_decode.md R109). -/
theorem decInt_encInt (b : Build) (kind : Signedness) (order : Endianness) (v : Word) :
    decInt b kind order (encInt b kind order v) = v := by
  cases order with
  | little => exact decInt_encInt_little b kind v
  | big => rw [encInt_big, decInt_big, List.reverse_reverse, ← encInt_little b, decInt_encInt_little]

/-! ### The round trip at the ports -/

theorem encInt_length_le (b : Build) (kind : Signedness) (order : Endianness) (v : Word) :
    (encInt b kind order v).length ≤ 8 := by
  rw [encInt_length]
  exact (minlen_bounds kind v).2

/-- An integer encode reports the length of the payload it packs. -/
theorem encodeInteger_eq (b : Build) (kind : Signedness) (order : Endianness) (v : Word) :
    encodeInteger b kind order v =
      .ok (pack (encInt b kind order v)) (encInt b kind order v).length := by
  rw [encodeInteger, encInt_length]

/-- The source's integer decode takes a payload of the encoder's length. -/
theorem encInt_length_permitted (b : Build) (kind : Signedness) (order : Endianness) (v : Word) :
    ¬ ((encInt b kind order v).length < 1 ∨ (encInt b kind order v).length > 8) := by
  have hbounds := minlen_bounds kind v
  rw [encInt_length]
  omega

/-- A decode of as many bytes as an integer encode reports, read from its own `dout`. -/
theorem decodeInteger_encodeInteger (b : Build) (kind : Signedness) (order : Endianness) (v : Word) :
    decodeInteger b kind order (portsOf (encodeInteger b kind order v)).lout.toNat
      (portsOf (encodeInteger b kind order v)).dout = .ok v 8 := by
  have hle := encInt_length_le b kind order v
  have hlout : (portsOf (encodeInteger b kind order v)).lout.toNat = (encInt b kind order v).length := by
    rw [encodeInteger_eq]
    exact Nat.mod_eq_of_lt (by omega)
  have hbytes := lanes_portsOf_pack hle
  rw [← encodeInteger_eq] at hbytes
  rw [decodeInteger_eq, hbytes, decInt_encInt, hlout, if_neg (encInt_length_permitted b kind order v)]

/-- Two rows of R66, an integer encode and the decode of the same kind and order, give the value back. -/
theorem ncu_decode_of_ncu_encode {b : Build} {enc dec n : BitVec 4} {kind : Signedness}
    {order : Endianness} {v : Word}
    (henc : ncu b (enc ++ n) v = portsOf (encodeInteger b kind order v))
    (hdec : ∀ (m : BitVec 4) (d : Word),
      ncu b (dec ++ m) d = portsOf (decodeInteger b kind order m.toNat d)) :
    ncu b (dec ++ (ncu b (enc ++ n) v).lout) (ncu b (enc ++ n) v).dout = ⟨v, 8#4, 0b00#2⟩ := by
  rw [hdec, henc, decodeInteger_encodeInteger, portsOf_ok]

/-! ### The round trip as source calls -/

/-- The line of an encode whose row packs the payload `p`, answered with the bytes of `p` (R69). -/
theorem transact_encode_line (b : Build) {v : Word} {order : Endianness} {m : Mnemonic} {p : Bytes}
    (hdir : m.direction = .hostToWire) (hop : assembleOperand m (.pattern v) = some (0, v))
    (hp : p.length ≤ 8)
    (hconv : convert b (selectRow m.direction m.kind order 0) v = .ok (pack p) p.length) :
    transact b ⟨m, order, .pattern v, none⟩ = some (.bytes p) := by
  rw [transact_eq b m order _ hop (by decide), hconv,
    readOutputs_bytes ((directionOf_encode_selectRow (by decide)).trans hdir) hp]

theorem convert_encu (b : Build) (order : Endianness) (n : Nat) (din : Word) :
    convert b (selectRow .hostToWire .unsigned order n) din = encodeInteger b .unsigned order din := by
  cases order <;> rfl

theorem convert_encs (b : Build) (order : Endianness) (n : Nat) (din : Word) :
    convert b (selectRow .hostToWire .signed order n) din = encodeInteger b .signed order din := by
  cases order <;> rfl

theorem convert_encf (b : Build) (order : Endianness) (n : Nat) (din : Word) :
    convert b (selectRow .hostToWire .float order n) din = encodeFloat b order din := by
  cases order <;> rfl

section EncodeCall

variable (b : Build) (v : Word) (order : Endianness)

theorem transact_encode_unsigned : transact b (SourceCall.encode (.u64 v) order).expand =
    some (.bytes (encInt b .unsigned order v)) :=
  transact_encode_line b (m := .encu) rfl rfl (encInt_length_le b .unsigned order v)
    ((convert_encu b order 0 v).trans (encodeInteger_eq b .unsigned order v))

theorem transact_encode_signed : transact b (SourceCall.encode (.i64 v) order).expand =
    some (.bytes (encInt b .signed order v)) :=
  transact_encode_line b (m := .encs) rfl rfl (encInt_length_le b .signed order v)
    ((convert_encs b order 0 v).trans (encodeInteger_eq b .signed order v))

theorem transact_encode_float : transact b (SourceCall.encode (.f64 v) order).expand =
    some (.bytes (encFlt b order v)) := by
  have hlen := encFlt_length b order v
  have hpack : encodeFloat b order v = .ok (pack (encFlt b order v)) (encFlt b order v).length := by
    rw [hlen, encodeFloat]
  exact transact_encode_line b (m := .encf) rfl rfl hlen.le ((convert_encf b order 0 v).trans hpack)

end EncodeCall

/-! ### The obligations -/

/-- Settles O11: the unsigned value of the Big lanes. -/
theorem decuBeZeroExtendsBigPayload : Obligations.DecuBeZeroExtendsBigPayload :=
  ⟨decode_append_len _, fun _ _ => exec_of_convert_decodeInteger rfl
    fun _ _ => decInt_unsigned build .big _⟩

/-- Settles O12: the unsigned value of the Little lanes, which masks `din`. -/
theorem decuLeZeroExtendsLittlePayload : Obligations.DecuLeZeroExtendsLittlePayload :=
  ⟨decode_append_len _, fun _ s => ⟨exec_of_convert_decodeInteger rfl
    fun _ _ => decInt_unsigned build .little _, ofNat_leVal_lanes_eq_and s.din⟩⟩

/-- Settles O13: the signed value of the Big lanes. -/
theorem decsBeSignExtendsBigPayload : Obligations.DecsBeSignExtendsBigPayload :=
  ⟨decode_append_len _, fun _ s => exec_of_convert_decodeInteger rfl
    (decInt_signed_lanes build .big s.din)⟩

/-- Settles O14: the signed value of the Little lanes, whose pattern is the low part of `din`. -/
theorem decsLeSignExtendsLittlePayload : Obligations.DecsLeSignExtendsLittlePayload :=
  ⟨decode_append_len _, fun L s => ⟨exec_of_convert_decodeInteger rfl
    (decInt_signed_lanes build .little s.din), fun _ => ofNat_leVal_lanes_eq_setWidth s.din L⟩⟩

/-- Settles O27, by the closed form of each kind in each order. -/
theorem integerDecodeClosedForm : Obligations.IntegerDecodeClosedForm :=
  fun b _ h1 h8 => ⟨decInt_unsigned b .little _, decInt_unsigned b .big _,
    decInt_signed b .little h1 h8, decInt_signed b .big h1 h8⟩

/-- Settles O28, one clause for each law. -/
theorem integerDecodeLaws : Obligations.IntegerDecodeLaws := by
  intro b order
  refine ⟨fun p h1 h8 => ⟨?agree, ?low, fun i hi64 hi => ⟨?zeros, ?copies⟩, ?reversed⟩, ?lanes⟩
  case agree => exact decInt_unsigned_eq_signed_iff b order h1 h8
  case low => exact setWidth_decInt b order h1 h8
  case zeros => exact getLsbD_decInt_unsigned_of_le b order h8 hi
  case copies =>
    rw [decInt_signed b order h1 h8]
    exact getLsbD_signExtend_of_le _ (by omega) hi hi64
  case reversed => exact fun kind => decInt_big b kind p
  case lanes => exact fun _ _ _ _ => decodeInteger_congr

/-- Settles O29: in Little order the buffer is the same, and a Big payload is a Little one reversed. -/
theorem nonMinimalPayloadDecodesAlike : Obligations.NonMinimalPayloadDecodesAlike := by
  intro b kind p k _ h8
  refine ⟨decInt_little_append_extFill b kind h8, ?_⟩
  have hrev := decInt_little_append_extFill b kind (p := p.reverse) (by simpa using h8)
  rw [← extFill_reverse, List.reverse_reverse] at hrev
  rw [decInt_big, decInt_big, List.reverse_append, List.reverse_replicate, hrev]

/-- Settles O37: each encode row against the decode row of its kind and order. -/
theorem integerRoundTrip : Obligations.IntegerRoundTrip :=
  fun b _ _ => ⟨ncu_decode_of_ncu_encode (kind := .unsigned) (order := .big)
      (ncu_append_len b ..) (ncu_append_len b _),
    ncu_decode_of_ncu_encode (kind := .unsigned) (order := .little)
      (ncu_append_len b ..) (ncu_append_len b _),
    ncu_decode_of_ncu_encode (kind := .signed) (order := .big)
      (ncu_append_len b ..) (ncu_append_len b _),
    ncu_decode_of_ncu_encode (kind := .signed) (order := .little)
      (ncu_append_len b ..) (ncu_append_len b _)⟩

/-- Settles O56: the bytes read are the encoder's payload, of a length that the decode call permits. -/
theorem sourceRoundTrip : Obligations.SourceRoundTrip := by
  intro b v order
  refine ⟨⟨_, transact_encode_unsigned b v order, ?u64⟩,
    ⟨_, transact_encode_signed b v order, ?i64⟩,
    ⟨_, transact_encode_float b v order, encFlt_length b order v, ?f64⟩⟩
  case u64 =>
    rw [transact_decode_unsigned, if_neg (encInt_length_permitted b .unsigned order v), decInt_encInt]
  case i64 =>
    rw [transact_decode_signed, if_neg (encInt_length_permitted b .signed order v), decInt_encInt]
  case f64 =>
    rw [transact_decode_float, if_pos (encFlt_length b order v), fltPattern8, encFlt, toHost_fromHost]

end Sys2Proof.Machine
end

section
/-! PROOFS. Integer encode (42_integer_encode.md): the minimal length of each kind is the least length whose
low lanes decode to the value, which gives its closed form (R120, R121) and that no shorter payload will do
(R128 c); the two lengths compared (R128 d); the retained bytes (R122) and the complete outcome of the four
operations (R124 to R127). -/

namespace Sys2Proof.Machine

/-! ### Retained bytes -/

theorem lanes_reverse (v : Word) (n : Nat) :
    (lanes v n).reverse = (List.range n).map fun j => lane v (n - 1 - j) := by
  refine List.ext_getElem (by simp) fun j _ _ => ?_
  rw [List.getElem_reverse, lanes_getElem, lanes_length, List.getElem_map, List.getElem_range]

section Retained

variable (host : Endianness) (v : Word) {n : Nat} (h : n ≤ 8)
include h

theorem retained_little_fromHost : retained .little n (fromHost host v .little) = lanes v n := by
  rw [fromHost_little, retained, lanes_take v h]

theorem retained_big_fromHost : retained .big n (fromHost host v .big) = (lanes v n).reverse := by
  rw [fromHost_big, retained, List.drop_reverse, lanes_length, Nat.sub_sub_self h, lanes_take v h]

end Retained

/-! ### As many lanes as the encoder keeps decode to the value -/

theorem lanes_eq_append_replicate {v : Word} {fill : Byte} {m n : Nat} (h : m ≤ n)
    (hfill : ∀ k, m ≤ k → k < n → lane v k = fill) :
    lanes v n = lanes v m ++ List.replicate (n - m) fill := by
  obtain ⟨d, rfl⟩ := Nat.exists_eq_add_of_le h
  rw [lanes_add, Nat.add_sub_cancel_left]
  congr 1
  refine List.eq_replicate_iff.mpr ⟨by simp, List.forall_mem_map.mpr fun j hj => ?_⟩
  exact hfill (m + j) (Nat.le_add_right m j) (Nat.add_lt_add_left (List.mem_range.mp hj) m)

/-- The lanes beyond those that the encoder keeps are extension bytes, which change nothing (R108). -/
theorem decInt_lanes_of_minlen_le (b : Build) (kind : Signedness) (v : Word) {n : Nat}
    (h : minlen kind v ≤ n) (h8 : n ≤ 8) : decInt b kind .little (lanes v n) = v := by
  have hfill (k) (hk : minlen kind v ≤ k) (hkn : k < n) :=
    lane_eq_extFill_of_minlen_le kind v hk (hkn.trans_le h8)
  have hlen : (lanes v (minlen kind v)).length + (n - minlen kind v) ≤ 8 := by
    rwa [lanes_length, Nat.add_sub_cancel' h]
  rw [lanes_eq_append_replicate h hfill, decInt_little_append_extFill b kind hlen, ← encInt_little b,
    decInt_encInt]

/-! ### Fewer lanes do not -/

section FewerLanes

variable {v : Word} {n : Nat}

/-- Where the low lanes decode to the value, every other lane is their extension byte. -/
theorem lane_eq_extFill_of_decInt_lanes {b : Build} {kind : Signedness}
    (hv : decInt b kind .little (lanes v n) = v) {k : Nat} (hn : n ≤ k) (hk : k < 8) :
    lane v k = extFill kind .little (lanes v n) := by
  have hlen : (placed .little (extFill kind .little (lanes v n)) (lanes v n)).length = 8 :=
    placed_length (by rw [lanes_length]; omega)
  have hlane := lane_pack hlen hk
  rw [pack, ← toHost_little b.hostOrder, ← decInt, hv] at hlane
  rw [hlane, ← Option.some_inj, ← List.getElem?_eq_getElem,
    placed_little_fill (by rwa [lanes_length]) hk]

theorem msb_extFill_signed (order : Endianness) (p : Bytes) :
    (extFill .signed order p).msb = (msbByte order p).msb := by
  rw [extFill]
  split
  next h => rw [h]; rfl
  next h => rw [Bool.eq_false_of_not_eq_true h]; rfl

/-- Lanes that are all extension show one sign, from the last payload byte up to the sign bit. -/
theorem msb_lane_of_lane_eq_extFill (h1 : 1 ≤ n)
    (hfill : ∀ k, n ≤ k → k < 8 → lane v k = extFill .signed .little (lanes v n)) {k : Nat}
    (hk : n ≤ k + 1) (hk8 : k < 8) (hn8 : n ≤ 8) : (lane v k).msb = v.msb := by
  have hlast {j} (hj : n ≤ j + 1) (hj8 : j < 8) : (lane v j).msb = (lane v (n - 1)).msb := by
    obtain rfl | hlt := Nat.eq_or_lt_of_le hj
    · rfl
    · rw [hfill j (Nat.le_of_lt_succ hlt) hj8, msb_extFill_signed, msbByte_little_lanes v h1]
  rw [hlast hk hk8, ← hlast (j := 7) hn8 (by decide), lane_msb, BitVec.msb_eq_getLsbD_last]

/-- The trimming loop does not stop above a length where all other lanes are extension bytes: it would drop
the top one of the lanes it still keeps. -/
theorem minlen_le_of_lane_eq_extFill (kind : Signedness) (h1 : 1 ≤ n)
    (hfill : ∀ k, n ≤ k → k < 8 → lane v k = extFill kind .little (lanes v n)) :
    minlen kind v ≤ n := by
  by_contra! hlt
  have h8 := (minlen_bounds kind v).2
  have htop := hfill (minlen kind v - 1) (by omega) (by omega)
  cases kind with
  | unsigned =>
    obtain ⟨-, -, -, hone | hstop⟩ := trimUnsigned_spec v 8 (by decide)
    · exact (h1.trans_lt hlt).ne' hone
    · exact hstop htop
  | signed =>
    have hsign {k} (hk : n ≤ k + 1) (hk8 : k < 8) : (lane v k).msb = v.msb :=
      msb_lane_of_lane_eq_extFill h1 hfill hk hk8 (by omega)
    have hbelow := hsign (k := minlen .signed v - 2) (by omega) (by omega)
    rw [extFill, msbByte_little_lanes v h1, hsign (by omega) (by omega)] at htop
    obtain ⟨-, -, -, hone | hstop⟩ :=
      trimSigned_spec v v.msb (if v.msb then 0xFF#8 else 0x00#8) 8 (by decide)
    · exact (h1.trans_lt hlt).ne' hone
    · exact hstop ⟨htop, hbelow⟩

end FewerLanes

/-- The minimal length is the least one whose low lanes decode to the value. -/
theorem decInt_lanes_eq_iff (b : Build) (kind : Signedness) (v : Word) {n : Nat} (h1 : 1 ≤ n)
    (h8 : n ≤ 8) : decInt b kind .little (lanes v n) = v ↔ minlen kind v ≤ n :=
  ⟨fun hv => minlen_le_of_lane_eq_extFill kind h1 fun _ => lane_eq_extFill_of_decInt_lanes hv,
    fun h => decInt_lanes_of_minlen_le b kind v h h8⟩

/-! ### Every payload of the value -/

section Payload

variable {b : Build} {kind : Signedness} {v : Word} {p : Bytes} (h1 : 1 ≤ p.length) (h8 : p.length ≤ 8)
include h1 h8

/-- Decode keeps the payload's bytes (R107 b), so a Little payload of the value is its own low lanes. -/
theorem lanes_of_decInt_little_eq (h : decInt b kind .little p = v) : lanes v p.length = p := by
  refine leVal_injective (lanes_length ..) ?_
  have hlow := congrArg BitVec.toNat (setWidth_decInt b .little h1 h8 kind)
  rwa [h, BitVec.toNat_setWidth, BitVec.toNat_ofNat, wireVal, Nat.mod_eq_of_lt (leVal_lt p),
    ← leVal_lanes] at hlow

theorem minlen_le_length_of_decInt_little_eq (h : decInt b kind .little p = v) :
    minlen kind v ≤ p.length := by
  rw [← decInt_lanes_eq_iff b kind v h1 h8, lanes_of_decInt_little_eq h1 h8 h, h]

end Payload

/-- No payload of the value is shorter than the encoder's (R128 c). -/
theorem minlen_le_length_of_decInt_eq {b : Build} {kind : Signedness} {order : Endianness} {v : Word}
    {p : Bytes} (h1 : 1 ≤ p.length) (h8 : p.length ≤ 8) (h : decInt b kind order p = v) :
    minlen kind v ≤ p.length := by
  cases order with
  | little => exact minlen_le_length_of_decInt_little_eq h1 h8 h
  | big =>
    rw [decInt_big] at h
    rw [← List.length_reverse] at h1 h8 ⊢
    exact minlen_le_length_of_decInt_little_eq h1 h8 h

/-! ### Closed forms of the minimal lengths -/

section Truncation

variable {w k : Nat} (x : BitVec w) (h : k ≤ w)
include h

theorem toInt_setWidth_of_le : (x.setWidth k).toInt = x.toInt.bmod (2 ^ k) := by
  rw [BitVec.toInt_setWidth, BitVec.toInt_eq_toNat_bmod, Int.bmod_bmod_of_dvd (Nat.pow_dvd_pow 2 h)]

/-- A pattern cut to its low bits and sign-extended again is the same where its signed value fits. -/
theorem signExtend_setWidth_eq_iff (hpos : 1 ≤ k) :
    (x.setWidth k).signExtend w = x ↔ -2 ^ (k - 1) ≤ x.toInt ∧ x.toInt ≤ 2 ^ (k - 1) - 1 := by
  rw [← BitVec.toInt_inj, BitVec.toInt_signExtend_of_le h]
  constructor
  · intro hx
    exact hx ▸ ⟨(x.setWidth k).le_toInt, Int.le_sub_one_of_lt (x.setWidth k).toInt_lt⟩
  · rintro ⟨hlo, hhi⟩
    obtain ⟨j, rfl⟩ := Nat.exists_eq_add_of_le' hpos
    have hpow : ((2 ^ (j + 1) : Nat) : ℤ) = 2 ^ j * 2 := by rw [Nat.pow_succ]; push_cast; rfl
    rw [Nat.add_sub_cancel] at hlo hhi
    rw [toInt_setWidth_of_le x h]
    exact Int.bmod_eq_of_le (by omega) (by omega)

end Truncation

section ClosedForm

variable (v : Word) {n : Nat} (h1 : 1 ≤ n) (h8 : n ≤ 8)
include h1 h8

/-- The low lanes are zero-extended to the value where it has no bit above them (R120). -/
theorem minlenU_le_iff : minlenU v ≤ n ↔ v.toNat < 2 ^ (8 * n) := by
  rw [← minlen, ← decInt_lanes_eq_iff build .unsigned v h1 h8, ← BitVec.toNat_inj,
    decInt_unsigned_toNat build .little (by rwa [lanes_length]), wireVal, leVal_lanes,
    Nat.mod_eq_iff_lt (Nat.two_pow_pos _).ne']

/-- The low lanes are sign-extended to the value where its signed value fits them (R121). -/
theorem minlenS_le_iff :
    minlenS v ≤ n ↔ -2 ^ (8 * n - 1) ≤ v.toInt ∧ v.toInt ≤ 2 ^ (8 * n - 1) - 1 := by
  rw [← minlen, ← decInt_lanes_eq_iff build .signed v h1 h8, decInt_signed_lanes build .little v h1 h8,
    wireVal, ofNat_leVal_lanes_eq_setWidth, signExtend_setWidth_eq_iff v (by omega) (by omega)]

end ClosedForm

/-! ### The two minimal lengths compared -/

theorem toNat_lt_of_minlenU (v : Word) : v.toNat < 2 ^ (8 * minlenU v) := by
  obtain ⟨h1, h8⟩ := minlen_bounds .unsigned v
  exact (minlenU_le_iff v h1 h8).mp le_rfl

/-- The top bit of a value's last unsigned byte says whether the value fills that byte's upper half. -/
theorem msb_lane_minlenU (v : Word) :
    (lane v (minlenU v - 1)).msb = true ↔ 2 ^ (8 * minlenU v - 1) ≤ v.toNat := by
  have h1 : 1 ≤ minlenU v := (minlen_bounds .unsigned v).1
  have hbit : 8 * (minlenU v - 1) + 7 = 8 * minlenU v - 1 := by omega
  have htop : 8 * minlenU v - 1 + 1 = 8 * minlenU v := by omega
  rw [lane_msb, hbit, BitVec.getLsbD]
  exact ⟨Nat.ge_two_pow_of_testBit, fun hge =>
    Nat.testBit_of_two_pow_le_and_two_pow_add_one_gt hge (htop ▸ toNat_lt_of_minlenU v)⟩

theorem minlenU_of_msb_true {v : Word} (hmsb : v.msb = true) : minlenU v = 8 := by
  have hbig : 2 ^ 63 ≤ v.toNat := by simpa [BitVec.msb_eq_decide] using hmsb
  have hnot : ¬ minlenU v ≤ 7 := by rw [minlenU_le_iff v (by decide) (by decide)]; omega
  have h8 : minlenU v ≤ 8 := (minlen_bounds .unsigned v).2
  omega

section NonNegative

variable {v : Word} (hmsb : v.msb = false)
include hmsb

/-- Of a value that is not negative, only the upper end of the signed range binds. -/
theorem minlenS_le_iff_of_msb_false {n : Nat} (h1 : 1 ≤ n) (h8 : n ≤ 8) :
    minlenS v ≤ n ↔ v.toNat < 2 ^ (8 * n - 1) := by
  have hpow : (2 : ℤ) ^ (8 * n - 1) = ((2 ^ (8 * n - 1) : Nat) : ℤ) := by push_cast; rfl
  rw [minlenS_le_iff v h1 h8, BitVec.toInt_eq_toNat_of_msb hmsb, hpow]
  omega

theorem minlenU_le_minlenS : minlenU v ≤ minlenS v := by
  obtain ⟨h1, h8⟩ := minlen_bounds .signed v
  have hlt := (minlenS_le_iff_of_msb_false hmsb h1 h8).mp le_rfl
  exact (minlenU_le_iff v h1 h8).mpr (hlt.trans_le (Nat.pow_le_pow_right (by decide) (Nat.sub_le ..)))

/-- One guard byte is always enough. -/
theorem minlenS_le_succ_minlenU (h : minlenU v < 8) : minlenS v ≤ minlenU v + 1 := by
  rw [minlenS_le_iff_of_msb_false hmsb (Nat.le_add_left ..) h]
  exact (toNat_lt_of_minlenU v).trans_le (Nat.pow_le_pow_right (by decide) (by omega))

/-- The guard byte is needed exactly where the last unsigned byte would show the wrong sign (R128 d). -/
theorem minlenS_eq_succ_iff :
    minlenS v = minlenU v + 1 ↔ (lane v (minlenU v - 1)).msb = true ∧ minlenU v < 8 := by
  obtain ⟨h1, h8⟩ := minlen_bounds .unsigned v
  have hS8 : minlenS v ≤ 8 := (minlen_bounds .signed v).2
  have hfits : minlenS v ≤ minlenU v ↔ v.toNat < 2 ^ (8 * minlenU v - 1) :=
    minlenS_le_iff_of_msb_false hmsb h1 h8
  have hnext := minlenS_le_succ_minlenU hmsb
  rw [msb_lane_minlenU, ← Nat.not_lt, ← hfits]
  omega

end NonNegative

/-! ### The four operations -/

/-- What an integer encode does to the ports: the packed payload and its length. -/
theorem exec_of_convert_encodeInteger {i : Instr} {s : State} {kind : Signedness} {order : Endianness}
    {p : Bytes} (hconv : convert build i s.din = encodeInteger build kind order s.din)
    (hp : encInt build kind order s.din = p) :
    exec i s = .next { s with
      dout := pack p, lout := BitVec.ofNat 4 (minlen kind s.din), status := 0b00#2 } :=
  exec_of_convert_ok (by rw [hconv, encodeInteger, hp])

theorem encInt_big_eq_map (b : Build) (kind : Signedness) (v : Word) : encInt b kind .big v =
    (List.range (minlen kind v)).map fun j => lane v (minlen kind v - 1 - j) := by
  rw [encInt_big, lanes_reverse]

/-- The lanes that an unsigned encode drops are zero already (R125). -/
theorem pack_lanes_minlenU (v : Word) : pack (lanes v (minlenU v)) = v := by
  have hv := decInt_encInt build .unsigned .little v
  rwa [encInt_little, decInt_unsigned] at hv

/-- Packing puts zeros in the lanes above the payload, also where the value has `0xFF` there (R127). -/
theorem pack_lanes_eq_setWidth (v : Word) {n : Nat} (h : n ≤ 8) :
    pack (lanes v n) = (v.setWidth (8 * n)).setWidth 64 := by
  have hlt := leVal_lt (lanes v n)
  rw [lanes_length] at hlt
  rw [← ofNat_leVal_lanes_eq_setWidth, BitVec.setWidth_ofNat_of_le_of_lt (by omega) hlt, pack]

/-! ### The obligations -/

/-- Settles O35: a payload that decodes to the value has at least as many bytes as the encoder keeps. -/
theorem encodeLengthIsMinimal : Obligations.EncodeLengthIsMinimal := by
  intro b kind order v p h1 hlt h
  rw [encInt_length] at hlt
  exact hlt.not_ge (minlen_le_length_of_decInt_eq h1 (hlt.le.trans (minlen_bounds kind v).2) h)

/-- Settles O32, by the closed form up to 8 bytes; 8 always hold the value. -/
theorem unsignedMinimalLength : Obligations.UnsignedMinimalLength := by
  intro v
  obtain ⟨h1, h8⟩ := minlen_bounds .unsigned v
  refine ⟨h1, h8, toNat_lt_of_minlenU v, fun n hn hlt => ?_⟩
  obtain hn8 | hn8 := le_total n 8
  · exact (minlenU_le_iff v hn hn8).mpr hlt
  · exact h8.trans hn8

/-- Settles O33, by the closed form up to 8 bytes; 8 always hold the value. -/
theorem signedMinimalLength : Obligations.SignedMinimalLength := by
  intro v
  obtain ⟨h1, h8⟩ := minlen_bounds .signed v
  refine ⟨h1, h8, (minlenS_le_iff v h1 h8).mp le_rfl, fun n hn hlo hhi => ?_⟩
  obtain hn8 | hn8 := le_total n 8
  · exact (minlenS_le_iff v hn hn8).mpr ⟨hlo, hhi⟩
  · exact h8.trans hn8

/-- Settles O36, by the closed forms of both lengths. -/
theorem signedLengthAgainstUnsigned : Obligations.SignedLengthAgainstUnsigned :=
  fun _ => ⟨fun hmsb => ⟨minlenU_le_minlenS hmsb, minlenS_eq_succ_iff hmsb⟩, minlenU_of_msb_true⟩

/-- Settles O34: the retained bytes are the low lanes, reversed for Big order. -/
theorem retainedBytesBySignificance : Obligations.RetainedBytesBySignificance :=
  fun host v n _ h8 => ⟨retained_little_fromHost host v h8,
    (retained_big_fromHost host v h8).trans (lanes_reverse v n)⟩

/-- Settles O15: the retained low lanes, from the top one down. -/
theorem encuBeEncodesMinimalBigPayload : Obligations.EncuBeEncodesMinimalBigPayload :=
  ⟨decode_append_len _, fun _ s =>
    exec_of_convert_encodeInteger rfl (encInt_big_eq_map build .unsigned s.din)⟩

/-- Settles O16: the retained low lanes hold the whole value. -/
theorem encuLeEncodesMinimalLittlePayload : Obligations.EncuLeEncodesMinimalLittlePayload := by
  refine ⟨decode_append_len _, fun L s => ?_⟩
  have hpack := pack_lanes_minlenU s.din
  have hexec := exec_of_convert_encodeInteger (i := .encuLe L) rfl (encInt_little build .unsigned s.din)
  rw [minlen, hpack] at hexec
  exact ⟨hexec, hpack.symm⟩

/-- Settles O17: the retained low lanes, from the top one down. -/
theorem encsBeEncodesMinimalBigPayload : Obligations.EncsBeEncodesMinimalBigPayload :=
  ⟨decode_append_len _, fun _ s =>
    exec_of_convert_encodeInteger rfl (encInt_big_eq_map build .signed s.din)⟩

/-- Settles O18: the retained low lanes, with zeros above them. -/
theorem encsLeEncodesMinimalLittlePayload : Obligations.EncsLeEncodesMinimalLittlePayload :=
  ⟨decode_append_len _, fun _ s =>
    ⟨exec_of_convert_encodeInteger rfl (encInt_little build .signed s.din),
      pack_lanes_eq_setWidth s.din (minlen_bounds .signed s.din).2⟩⟩

end Sys2Proof.Machine
end

section
/-! PROOFS. The Float Re-packer (43_float.md): the complete outcome of the four operations (R147 to R150), the
pattern of a payload (R140), the result of widening by class (R143 to R145), that widening keeps the value
(R142 to R145, R153), and the round trip of a double through its 8 bytes (R151). -/

namespace Sys2Proof.Machine

/-! ### The four operations -/

/-- What a float decode does to the ports, given the patterns `d` of 8 bytes and `w` of 4. -/
theorem exec_of_convert_decodeFloat {i : Instr} {s : State} {order : Endianness} {L : Nat} {d : Word}
    {w : BitVec 32} (hconv : convert build i s.din = decodeFloat build order L s.din)
    (hd : BitVec.ofNat 64 (wireVal order (lanes s.din 8)) = d)
    (hw : BitVec.ofNat 32 (wireVal order (lanes s.din 4)) = w) :
    exec i s = .next (if L ≠ 4 ∧ L ≠ 8 then { s with dout := 0#64, lout := 0#4, status := 0b01#2 }
      else { s with
        dout := if L = 8 then d else widen build w
        lout := 8#4, status := 0b00#2 }) := by
  rw [exec_eq_complete, hconv, decodeFloat_eq, fltPattern8_eq, fltPattern4_eq, hd, hw]
  by_cases h8 : L = 8
  · rw [if_pos h8, if_neg (by omega), if_pos h8, complete_ok]
  · by_cases h4 : L = 4
    · rw [if_neg h8, if_pos h4, if_neg (by omega), if_neg h8, complete_ok]
    · rw [if_neg h8, if_neg h4, if_pos ⟨h4, h8⟩, complete_invalidLength]

/-- A float encode is the bare normalizer (R141). -/
theorem encodeFloat_eq_normalizeOut (b : Build) (order : Endianness) (din : Word) :
    encodeFloat b order din = normalizeOut b order din := rfl

theorem convert_encfBe (b : Build) (L : Nat) (din : Word) :
    convert b (.encfBe L) din = .ok (byteSwap din) 8 := by
  rw [convert, encfBe, encodeFloat_eq_normalizeOut, normalizeOut, fromHost_big, byteSwap]

theorem convert_encfLe (b : Build) (L : Nat) (din : Word) :
    convert b (.encfLe L) din = .ok din 8 := by
  rw [convert, encfLe, encodeFloat_eq_normalizeOut, normalizeOut, fromHost_little, pack_lanes]

/-! ### The round trip of a double -/

/-- Decode of all 8 bytes undoes a float encode (R151). -/
theorem decodeFloat_encodeFloat (b : Build) (order : Endianness) (d : Word) :
    decodeFloat b order 8 (portsOf (encodeFloat b order d)).dout = .ok d 8 := by
  have hbytes : lanes (pack (encFlt b order d)) 8 = encFlt b order d :=
    encFlt_length b order d ▸ lanes_pack (encFlt_length b order d).le
  rw [encodeFloat, portsOf_ok, decodeFloat_eq, if_pos rfl, hbytes, fltPattern8, encFlt, toHost_fromHost]

/-- Two rows of R66, the float encode and the float decode of one order, give the double back. -/
theorem ncu_decf_of_ncu_encf {b : Build} {enc dec n : BitVec 4} {order : Endianness} {d : Word}
    (henc : ncu b (enc ++ n) d = portsOf (encodeFloat b order d))
    (hdec : ∀ x : Word, ncu b (dec ++ 8#4) x = portsOf (decodeFloat b order 8 x)) :
    ncu b (dec ++ 8#4) (ncu b (enc ++ n) d).dout = ⟨d, 8#4, 0b00#2⟩ := by
  rw [hdec, henc, decodeFloat_encodeFloat, portsOf_ok]

/-! ### Fields -/

/-- A single is its sign, exponent and mantissa fields (R142). -/
theorem single_eq_append (w : BitVec 32) :
    singleSign w ++ singleExponent w ++ singleMantissa w = w := by
  refine BitVec.eq_of_getLsbD_eq fun i hi => ?_
  simp only [singleSign, singleExponent, singleMantissa, BitVec.getLsbD_append,
    BitVec.getLsbD_extractLsb']
  split
  next h => simp [h]
  next h =>
    split
    next h' => simp [h', show 23 + (i - 23) = i by omega]
    next h' =>
      obtain rfl : i = 31 := by omega
      simp

/-! ### Widening, class by class -/

theorem lt_width_of_two_pow_le {w k : Nat} {m : BitVec w} (h : 2 ^ k ≤ m.toNat) : k < w :=
  (Nat.pow_lt_pow_iff_right (by decide : 1 < 2)).mp (h.trans_lt m.isLt)

/-- The highest 1 bit of a mantissa is its binary logarithm (R144). -/
theorem highestOne_of_bounds {m : BitVec 23} {k : Nat} (hlo : 2 ^ k ≤ m.toNat)
    (hhi : m.toNat < 2 ^ (k + 1)) : highestOne m 22 = k :=
  highestOne_eq (Nat.le_of_lt_succ (lt_width_of_two_pow_le hlo))
    (Nat.testBit_of_two_pow_le_and_two_pow_add_one_gt hlo hhi)
    fun _ hj _ => Nat.testBit_lt_two_pow (hhi.trans_le (Nat.pow_le_pow_right (by decide) hj))

section Classes

variable (b : Build) (s : BitVec 1)

theorem widen_zero : widen b (s ++ 0#8 ++ 0#23) = doubleOf s 0#11 0#52 := by
  simp [widen]

theorem widen_infinity : widen b (s ++ 255#8 ++ 0#23) = doubleOf s 0x7FF#11 0#52 := by
  simp [widen]

theorem widen_nan {w : BitVec 32} (h : isSingleNaN w = true) : widen b w = b.nanWiden w := by
  obtain ⟨he, hm⟩ : singleExponent w = 255#8 ∧ singleMantissa w ≠ 0#23 := by
    simpa [isSingleNaN] using h
  simp [widen, he, hm]

theorem widen_normalized {e : BitVec 8} (m : BitVec 23) (h0 : e ≠ 0#8) (h255 : e ≠ 255#8) :
    widen b (s ++ e ++ m) = doubleOf s (BitVec.ofNat 11 (e.toNat + 896)) (m ++ 0#29) := by
  simp [widen, h0, h255]

theorem widen_subnormal {m : BitVec 23} {k : Nat} (hlo : 2 ^ k ≤ m.toNat)
    (hhi : m.toNat < 2 ^ (k + 1)) : widen b (s ++ 0#8 ++ m) =
      doubleOf s (BitVec.ofNat 11 (874 + k)) (BitVec.ofNat 52 ((m.toNat - 2 ^ k) * 2 ^ (52 - k))) := by
  have hm : m ≠ 0#23 := by
    rintro rfl
    exact absurd hlo (Nat.two_pow_pos k).not_ge
  simp [widen, hm, widenSubnormal, highestOne_of_bounds hlo hhi]

end Classes

/-! ### NaNs -/

theorem isSingleNaN_append (s : BitVec 1) (e : BitVec 8) (m : BitVec 23) :
    isSingleNaN (s ++ e ++ m) = (decide (e = 255#8) && decide (m ≠ 0#23)) := by
  rw [isSingleNaN, singleExponent_append, singleMantissa_append]

/-- The quiet bit of the default keeps the fraction from being 0 (R145). -/
theorem isDoubleNaN_nanWidenDefault (w : BitVec 32) : isDoubleNaN (nanWidenDefault w) = true := by
  have hm : (1#1 ++ (singleMantissa w).setWidth 22 ++ 0#29 : BitVec 52) ≠ 0#52 := by
    intro h
    have hquiet := congrArg (BitVec.getLsbD · 51) h
    simp only [BitVec.getLsbD_append] at hquiet
    simp at hquiet
  simp [isDoubleNaN, nanWidenDefault, hm]

/-- The layout that R145 gives the default. -/
theorem nanWidenDefault_append (s : BitVec 1) (e : BitVec 8) (m : BitVec 23) :
    nanWidenDefault (s ++ e ++ m) =
      s ++ 0b11111111111#11 ++ 1#1 ++ m.extractLsb' 0 22 ++ 0#29 := by
  rw [nanWidenDefault, singleSign_append, singleMantissa_append, doubleOf,
    BitVec.append_assoc (x₁ := s ++ _), BitVec.cast_eq, BitVec.append_assoc (x₁ := s ++ _),
    BitVec.cast_eq, BitVec.setWidth_eq_extractLsb' (by decide)]

/-! ### Widening as a relation -/

/-- How a single that is no NaN is widened, one constructor for each class of R143 and R144.  The two
classes of nonzero numbers give a normalized double, with its fields written as numbers. -/
inductive Widens : BitVec 32 → Word → Prop where
  | zero (s : BitVec 1) : Widens (s ++ 0#8 ++ 0#23) (doubleOf s 0#11 0#52)
  | infinity (s : BitVec 1) : Widens (s ++ 255#8 ++ 0#23) (doubleOf s 0x7FF#11 0#52)
  | subnormal (s : BitVec 1) (m : BitVec 23) (k f : Nat) (hk : k < 23) (hm : m.toNat = 2 ^ k + f)
    (hf : f < 2 ^ k) :
    Widens (s ++ 0#8 ++ m) (doubleOf s (BitVec.ofNat 11 (874 + k)) (BitVec.ofNat 52 (f * 2 ^ (52 - k))))
  | normalized (s : BitVec 1) (e : BitVec 8) (m : BitVec 23) (h0 : e ≠ 0#8) (h255 : e ≠ 255#8) :
    Widens (s ++ e ++ m)
      (doubleOf s (BitVec.ofNat 11 (e.toNat + 896)) (BitVec.ofNat 52 (m.toNat * 2 ^ 29)))

/-- 29 zero bits appended are a factor `2^29` (R143). -/
theorem append_zeros_eq_ofNat (m : BitVec 23) : m ++ 0#29 = BitVec.ofNat 52 (m.toNat * 2 ^ 29) := by
  have hlt := m.isLt
  refine BitVec.eq_of_toNat_eq ?_
  rw [BitVec.toNat_append, BitVec.toNat_ofNat, BitVec.toNat_ofNat, Nat.zero_mod, Nat.or_zero,
    Nat.shiftLeft_eq, Nat.mod_eq_of_lt (by omega)]

/-- `widen` takes every single that is no NaN where its class says. -/
theorem widens_widen (b : Build) {w : BitVec 32} (h : isSingleNaN w = false) :
    Widens w (widen b w) := by
  obtain ⟨s, e, m, rfl⟩ : ∃ s e m, w = s ++ e ++ m := ⟨_, _, _, (single_eq_append w).symm⟩
  rw [isSingleNaN_append] at h
  by_cases h0 : e = 0#8
  · subst h0
    by_cases hm : m = 0#23
    · subst hm
      exact widen_zero b s ▸ .zero s
    · have hlo := Nat.pow_log_le_self 2 (BitVec.toNat_pos_of_ne_zero hm).ne'
      have hhi := Nat.lt_pow_succ_log_self (b := 2) (by decide) m.toNat
      rw [widen_subnormal b s hlo hhi]
      exact .subnormal s m _ _ (lt_width_of_two_pow_le hlo) (by omega) (by omega)
  · by_cases h255 : e = 255#8
    · obtain rfl : m = 0#23 := by simpa [h255] using h
      subst h255
      exact widen_infinity b s ▸ .infinity s
    · rw [widen_normalized b s m h0 h255, append_zeros_eq_ofNat]
      exact .normalized s e m h0 h255

/-! ### The double that a finite nonzero single gives -/

section NormalizedDouble

variable {E : Nat} (h0 : 0 < E) (h2047 : E < 2047)
include h2047

theorem ofNat_exponent_ne_ones : BitVec.ofNat 11 E ≠ 0x7FF#11 := by
  rw [BitVec.toNat_ne, BitVec.toNat_ofNat, BitVec.toNat_ofNat]
  omega

include h0

theorem ofNat_exponent_ne_zero : BitVec.ofNat 11 E ≠ 0#11 := by
  rw [BitVec.toNat_ne, BitVec.toNat_ofNat, BitVec.toNat_ofNat]
  omega

/-- R142's formula on a normalized double. -/
theorem doubleValue_doubleOf (s : BitVec 1) {F : Nat} (hF : F < 2 ^ 52) :
    doubleValue (doubleOf s (BitVec.ofNat 11 E) (BitVec.ofNat 52 F)) =
      some (signFactor s * 2 ^ ((E : ℤ) - 1023) * (1 + F / 2 ^ 52)) := by
  have hE : E < 2 ^ 11 := by omega
  simp only [doubleValue, doubleSign_doubleOf, doubleExponent_doubleOf, doubleMantissa_doubleOf,
    BitVec.toNat_ofNat, Nat.mod_eq_of_lt hE, Nat.mod_eq_of_lt hF,
    if_neg (ofNat_exponent_ne_ones h2047), if_neg (ofNat_exponent_ne_zero h0 h2047)]

end NormalizedDouble

/-- The fraction of a widened subnormal fits its field. -/
theorem mul_two_pow_lt {f k : Nat} (hf : f < 2 ^ k) (hk : k ≤ 52) : f * 2 ^ (52 - k) < 2 ^ 52 := by
  calc f * 2 ^ (52 - k) < 2 ^ k * 2 ^ (52 - k) := Nat.mul_lt_mul_of_pos_right hf (Nat.two_pow_pos _)
    _ = 2 ^ 52 := by rw [← Nat.pow_add, Nat.add_sub_cancel' hk]

/-- A subnormal's number is its normalized double's (R144). -/
theorem subnormal_value_eq {k : Nat} (f : Nat) (hk : k ≤ 52) :
    ((2 ^ k + f : Nat) : ℚ) / 2 ^ 149 =
      2 ^ (((874 + k : Nat) : ℤ) - 1023) * (1 + ((f * 2 ^ (52 - k) : Nat) : ℚ) / 2 ^ 52) := by
  have hexp : ((874 + k : Nat) : ℤ) - 1023 = (k : ℤ) - 149 := by push_cast; ring
  have hpow : (2 : ℚ) ^ 52 = 2 ^ (52 - k) * 2 ^ k := by rw [← pow_add, Nat.sub_add_cancel hk]
  rw [hexp, zpow_sub₀ two_ne_zero, hpow, zpow_natCast]
  push_cast
  field_simp
  norm_num

/-- The single that widens to `d`: what R143 and R144 do, undone.  Exponent fields 874 to 896 are those of
subnormals, and 2047 is that of an infinity. -/
def narrow (d : Word) : BitVec 32 :=
  let s := doubleSign d
  let e := (doubleExponent d).toNat
  let f := (doubleMantissa d).toNat
  if e = 0 then s ++ 0#8 ++ 0#23
  else if e ≤ 896 then s ++ 0#8 ++ BitVec.ofNat 23 ((2 ^ 52 + f) / 2 ^ (926 - e))
  else s ++ BitVec.ofNat 8 (min (e - 896) 255) ++ BitVec.ofNat 23 (f / 2 ^ 29)

/-- `narrow` on fields written as numbers. -/
theorem narrow_doubleOf (s : BitVec 1) {E F : Nat} (h0 : 0 < E) (hE : E < 2 ^ 11) (hF : F < 2 ^ 52) :
    narrow (doubleOf s (BitVec.ofNat 11 E) (BitVec.ofNat 52 F)) =
      if E ≤ 896 then s ++ 0#8 ++ BitVec.ofNat 23 ((2 ^ 52 + F) / 2 ^ (926 - E))
      else s ++ BitVec.ofNat 8 (min (E - 896) 255) ++ BitVec.ofNat 23 (F / 2 ^ 29) := by
  simp only [narrow, doubleSign_doubleOf, doubleExponent_doubleOf, doubleMantissa_doubleOf,
    BitVec.toNat_ofNat, Nat.mod_eq_of_lt hE, Nat.mod_eq_of_lt hF, if_neg h0.ne']

namespace Widens

variable {w : BitVec 32} {d : Word} (h : Widens w d)
include h

theorem sign_eq : doubleSign d = singleSign w := by
  cases h <;> simp

/-- An infinity is widened to an infinity, and every other single to a finite double. -/
theorem infinite_or_finite :
    (doubleExponent d = 0x7FF#11 ∧ doubleMantissa d = 0#52 ∧
      singleExponent w = 255#8 ∧ singleMantissa w = 0#23) ∨
    (doubleExponent d ≠ 0x7FF#11 ∧ singleExponent w ≠ 255#8) := by
  cases h with
  | zero s => right; simp
  | infinity s => left; simp
  | subnormal s m k f hk hm hf =>
    right
    simp [ofNat_exponent_ne_ones (E := 874 + k) (by omega)]
  | normalized s e m h0 h255 =>
    right
    simp [ofNat_exponent_ne_ones (E := e.toNat + 896) (by omega), h255]

/-- A NaN comes of nothing but a NaN. -/
theorem isDoubleNaN_eq_false : isDoubleNaN d = false := by
  obtain ⟨-, hm, -⟩ | ⟨he, -⟩ := h.infinite_or_finite
  · simp [isDoubleNaN, hm]
  · simp [isDoubleNaN, he]

theorem infinite_iff : (doubleExponent d = 0x7FF#11 ∧ doubleMantissa d = 0#52) ↔
    (singleExponent w = 255#8 ∧ singleMantissa w = 0#23) := by
  obtain ⟨he, hm, he', hm'⟩ | ⟨he, he'⟩ := h.infinite_or_finite
  · exact iff_of_true ⟨he, hm⟩ ⟨he', hm'⟩
  · exact iff_of_false (he ·.1) (he' ·.1)

/-- The number is the same, by R142's formula on both sides or R144's for a subnormal. -/
theorem value_eq : doubleValue d = singleValue w := by
  cases h with
  | zero s => simp [doubleValue, singleValue]
  | infinity s => simp [doubleValue, singleValue]
  | subnormal s m k f hk hm hf =>
    rw [doubleValue_doubleOf (by omega) (by omega) s (mul_two_pow_lt hf (by omega)), mul_assoc,
      ← subnormal_value_eq f (by omega), ← hm]
    simp [singleValue]
  | normalized s e m h0 h255 =>
    rw [doubleValue_doubleOf (by omega) (by omega) s (by omega)]
    have hexp : ((e.toNat + 896 : Nat) : ℤ) - 1023 = e.toNat - 127 := by push_cast; ring
    have hfrac : ((m.toNat * 2 ^ 29 : Nat) : ℚ) / 2 ^ 52 = m.toNat / 2 ^ 23 := by push_cast; ring
    rw [hexp, hfrac]
    simp [singleValue, h0, h255]

/-- What is widened can be told from the result. -/
theorem narrow_eq : narrow d = w := by
  cases h with
  | zero s => simp [narrow]
  | infinity s => simp [narrow]
  | subnormal s m k f hk hm hf =>
    have hshift : 926 - (874 + k) = 52 - k := by omega
    have hsplit : 2 ^ 52 + f * 2 ^ (52 - k) = m.toNat * 2 ^ (52 - k) := by
      rw [hm, Nat.add_mul, ← Nat.pow_add, Nat.add_sub_cancel' (by omega)]
    rw [narrow_doubleOf s (by omega) (by omega) (mul_two_pow_lt hf (by omega)), if_pos (by omega),
      hshift, hsplit, Nat.mul_div_cancel _ (Nat.two_pow_pos _), BitVec.ofNat_toNat, BitVec.setWidth_eq]
  | normalized s e m h0 h255 =>
    have hpos := BitVec.toNat_pos_of_ne_zero h0
    have he : e.toNat ≤ 255 := by omega
    rw [narrow_doubleOf s (by omega) (by omega) (by omega), if_neg (by omega), Nat.add_sub_cancel,
      Nat.min_eq_left he, Nat.mul_div_cancel _ (by decide), BitVec.ofNat_toNat, BitVec.ofNat_toNat,
      BitVec.setWidth_eq, BitVec.setWidth_eq]

end Widens

/-! ### The obligations -/

/-- Settles O19: the patterns are the Big values of the lanes. -/
theorem decfBeDecodesBigFloat : Obligations.DecfBeDecodesBigFloat :=
  ⟨decode_append_len _, fun _ _ => exec_of_convert_decodeFloat (order := .big) rfl rfl rfl⟩

/-- Settles O20: the Little values of the lanes are `din` and its low half. -/
theorem decfLeDecodesLittleFloat : Obligations.DecfLeDecodesLittleFloat :=
  ⟨decode_append_len _, fun _ s => exec_of_convert_decodeFloat (order := .little) rfl
    (pack_lanes s.din) (ofNat_leVal_lanes_eq_setWidth s.din 4)⟩

/-- Settles O21: the byte swap packs the lanes from lane 7 down. -/
theorem encfBeEmitsEightBigBytes : Obligations.EncfBeEmitsEightBigBytes :=
  ⟨decode_append_len _, fun L s => exec_of_convert_ok (convert_encfBe build L s.din)⟩

/-- Settles O22: packing the lanes of `din` gives `din` back. -/
theorem encfLeEmitsEightLittleBytes : Obligations.EncfLeEmitsEightLittleBytes :=
  ⟨decode_append_len _, fun L s => ⟨exec_of_convert_ok (convert_encfLe build L s.din),
    (pack_lanes s.din).symm⟩⟩

/-- Settles O39: the closed forms of the normalizer, and of placement for 4 bytes. -/
theorem floatPatternClosedForm : Obligations.FloatPatternClosedForm :=
  fun b p => ⟨fun _ => ⟨fltPattern8_eq b .little p, fltPattern8_eq b .big p⟩,
    fun _ => ⟨fltPattern4_eq b .little p, fltPattern4_eq b .big p⟩⟩

/-- Settles O40: an exponent field in the range is that of no other class. -/
theorem widenNormalizedSingle : Obligations.WidenNormalizedSingle := by
  intro b s e m h1 h254
  have h0 : e ≠ 0#8 := by rintro rfl; simp at h1
  have h255 : e ≠ 255#8 := by rintro rfl; simp at h254
  rw [widen_normalized b s m h0 h255, doubleOf, BitVec.append_assoc (x₁ := s ++ _), BitVec.cast_eq]

/-- Settles O41, one clause for each class; zero's two zero fields are 63 zero bits. -/
theorem widenZeroSubnormalInfinity : Obligations.WidenZeroSubnormalInfinity :=
  fun b s => ⟨(widen_zero b s).trans (BitVec.append_assoc ..), widen_infinity b s,
    fun _ _ => widen_subnormal b s⟩

/-- Settles O42: the machine's pattern is a NaN by its layout, the default by its quiet bit. -/
theorem nanWidensToNan : Obligations.NanWidensToNan :=
  ⟨fun b _ => widen_nan b, fun w _ => nanPattern_isDoubleNaN (Config.nanSign w) (Config.nanFraction w),
    fun w _ => isDoubleNaN_nanWidenDefault w, fun s m => nanWidenDefault_append s 255#8 m⟩

/-- Settles O43, each clause from the class of the single; the result narrows back to it. -/
theorem widenPreservesValue : Obligations.WidenPreservesValue := by
  intro b hb
  have hw {w : BitVec 32} (h : isSingleNaN w = false) : Widens w (widen b w) := widens_widen b h
  refine ⟨fun w => ?nan, fun w h => ⟨(hw h).sign_eq, (hw h).value_eq⟩, fun w h => (hw h).infinite_iff,
    fun w w' h h' heq => ?injective⟩
  case nan =>
    cases h : isSingleNaN w with
    | true => rw [widen_nan b h, hb w h]
    | false => exact (hw h).isDoubleNaN_eq_false
  case injective => rw [← (hw h).narrow_eq, heq, (hw h').narrow_eq]

/-- Settles O44: each encode row against the decode row of its order. -/
theorem floatRoundTrip : Obligations.FloatRoundTrip :=
  fun b _ _ => ⟨ncu_decf_of_ncu_encf (order := .big) (ncu_append_len b ..) (ncu_append_len b _ _),
    ncu_decf_of_ncu_encf (order := .little) (ncu_append_len b ..) (ncu_append_len b _ _)⟩

end Sys2Proof.Machine
end

section
/-! PROOFS. The one error of the unit (60_exceptions.md): which command words raise `InvalidLength` (R170),
and that the error outcome leaves nothing behind (R171, R175). -/

namespace Sys2Proof.Machine

/-! ### When `InvalidLength` is raised -/

/-- Status `01` stands on the ports for the error and for no data (10_state.md R29; R171). -/
theorem portsOf_status_eq_invalidLength_iff (c : Conversion) :
    (portsOf c).status = 0b01#2 ↔ c = .invalidLength := by
  cases c <;> simp

theorem decodeInteger_eq_invalidLength_iff (b : Build) (kind : Signedness) (order : Endianness) (L : Nat)
    (din : Word) : decodeInteger b kind order L din = .invalidLength ↔ L = 0 ∨ L ≥ 9 := by
  rw [decodeInteger_eq, ite_eq_left_iff, imp_iff_not (by simp), not_not]
  omega

theorem decodeFloat_eq_invalidLength_iff (b : Build) (order : Endianness) (L : Nat) (din : Word) :
    decodeFloat b order L din = .invalidLength ↔ L ≠ 4 ∧ L ≠ 8 := by
  rw [decodeFloat_eq]
  split
  next h8 => simp [h8]
  next h8 => simp [h8]

/-- The failing inputs, by the row of R66 and the `LEN`: rows 0 to 3 are the integer decodes, rows 4 and 5
the float decodes, and no other row fails (R170). -/
theorem convert_eq_invalidLength_iff (b : Build) (i : Instr) (din : Word) :
    convert b i din = .invalidLength ↔
      ((matchWord i).toNat < 64 ∧ (i.len = 0 ∨ i.len ≥ 9)) ∨
        ((64 ≤ (matchWord i).toNat ∧ (matchWord i).toNat < 96) ∧ i.len ≠ 4 ∧ i.len ≠ 8) := by
  cases i with
  | decuBe L | decuLe L | decsBe L | decsLe L =>
    refine (decodeInteger_eq_invalidLength_iff b _ _ L din).trans ?_
    simp [matchWord, Instr.len]
  | decfBe L | decfLe L =>
    refine (decodeFloat_eq_invalidLength_iff b _ L din).trans ?_
    simp [matchWord, Instr.len]
  | tohostBe _ | tohostLe _ | encuBe _ | encuLe _ | encsBe _ | encsLe _ | encfBe _ | encfLe _
  | fromhostBe _ | fromhostLe _ =>
    refine iff_of_false (convert_ne_invalidLength b din (by simp [matchWord])) ?_
    simp [matchWord]

/-! ### What the error leaves -/

/-- Legal outputs with status `01` hold no data (R171). -/
theorem Outputs.Legal.zero_of_invalidLength {o : Outputs} (h : o.Legal) (hs : o.status = 0b01#2) :
    o.dout = 0#64 ∧ o.lout = 0#4 := by
  obtain ⟨hok, -, -⟩ | ⟨-, hdout, hlout⟩ := h
  · simp [hs] at hok
  · exact ⟨hdout, hlout⟩

/-- The outputs on the ports before a transaction do not reach the state after it (10_state.md R25). -/
theorem step_drive_settle (s : State) (o : Outputs) (cmd : Byte) (din : Word) :
    step ((s.settle o).drive cmd din) = step (s.drive cmd din) := by
  rw [step_drive, step_drive, State.drive_settle, State.settle_settle]

/-! ### The obligations -/

/-- Settles O45: the row and the `LEN` of the decoded word are its high and low four bits. -/
theorem invalidLengthRaisedExactlyWhen : Obligations.InvalidLengthRaisedExactlyWhen := by
  intro b cmd din L
  rw [ncu, portsOf_status_eq_invalidLength_iff, convert_eq_invalidLength_iff, matchWord_decode_toNat,
    decode_len]
  omega

/-- Settles O46: the next state is the old one with its outputs settled on the error, which are legal. -/
theorem errorOutcomeLeavesNothingBehind : Obligations.ErrorOutcomeLeavesNothingBehind := by
  intro s s' h hstatus
  obtain ⟨-, rfl⟩ := step_next h
  obtain ⟨hdout, hlout⟩ := (ncu_legal build s.cmd s.din).zero_of_invalidLength hstatus
  exact ⟨hdout, hlout, State.settle_cmd .., State.settle_din .., step_drive_settle s _⟩

end Sys2Proof.Machine
end
